-- ==== Sys2Proof/Word.lean ====
section
/-! DEFINITION. The two machine words: a byte of memory and a 32-bit register (rules R7, R10 of
spec/00_scope.md). Bit 0 is the least significant bit; arithmetic on them wraps. -/

namespace Sys2Proof

/-- One byte of memory or of an instruction's encoding. -/
abbrev Byte := BitVec 8

/-- A 32-bit register, address, immediate or interrupt number (rule R7). -/
abbrev Word := BitVec 32

end Sys2Proof
end

