-- ==== Sys2Proof/Syntax.lean ====
section
/-! DEFINITION. The instructions as terms (rule R93 of spec/30_encoding.md): one constructor for each of
the sixteen rows of spec/opcode_table.json, with the operand forms of rule R87. -/

namespace Sys2Proof

/-- The access width T (rules R7, R85): Byte = 1, Word = 2, Double = 4 bytes. -/
inductive Width where
  | byte
  | word
  | double
  deriving DecidableEq, Repr, Inhabited

/-- T in bytes (rule R85). -/
@[reducible] def Width.bytes : Width → Nat
  | .byte => 1
  | .word => 2
  | .double => 4

/-- The width 8T in bits (rule R10). -/
abbrev Width.bits (w : Width) : Nat := 8 * w.bytes

/-- The registers an operand can name (rule R86): r0–r9 and i0. The float registers, ip and cf cannot
be named (rules R25, R34). -/
inductive Reg where
  | r (n : Fin 10)
  | i0
  deriving DecidableEq, Repr

/-- A format D destination (rule R88): a register or an absolute memory address. -/
inductive Dst where
  | reg (k : Reg)
  | mem (a : Word)
  deriving DecidableEq, Repr

/-- A source or control operand (rule R87): a register, the pointer whose address the instruction
gives, an immediate, or the pointer whose address a register holds. -/
inductive Src where
  | reg (k : Reg)
  | mem (a : Word)
  | imm (v : Word)
  | ind (k : Reg)
  deriving DecidableEq, Repr

/-- The sixteen instructions (rules R2, R93). Format D carries a width, a destination and a source;
format C carries one operand (rule R80). -/
inductive Instr where
  | ld (w : Width) (dst : Dst) (src : Src)
  | st (w : Width) (dst : Dst) (src : Src)
  | cmp (w : Width) (dst : Dst) (src : Src)
  | add (w : Width) (dst : Dst) (src : Src)
  | sub (w : Width) (dst : Dst) (src : Src)
  | mul (w : Width) (dst : Dst) (src : Src)
  | div (w : Width) (dst : Dst) (src : Src)
  | mod (w : Width) (dst : Dst) (src : Src)
  | jmp (src : Src)
  | je (src : Src)
  | jne (src : Src)
  | jg (src : Src)
  | jge (src : Src)
  | jl (src : Src)
  | jle (src : Src)
  | int (src : Src)
  deriving DecidableEq, Repr

/-- The encoding field a DecodeError names (rule R101). -/
inductive DecodeField where
  | opcode
  | width
  | dtag
  | stag
  | register
  deriving DecidableEq, Repr

end Sys2Proof
end

