-- ==== Sys2Proof/WellFormed.lean ====
section
/-! DEFINITION. Which terms of Instr an encoding can hold: a format D immediate has 8T bits (rule R90 of
spec/30_encoding.md) and the location of `st` is no immediate (rule R89). -/

namespace Sys2Proof

/-- An immediate fits in its field of `bits` bits (rule R90); the other forms always fit. -/
def Src.fits (bits : Nat) : Src → Bool
  | .imm v => decide (v.toNat < 2 ^ bits)
  | .reg _ => true
  | .mem _ => true
  | .ind _ => true

/-- The operand names a location: it is not an immediate (rules R89, R94). -/
def Src.namesLocation : Src → Bool
  | .imm _ => false
  | .reg _ => true
  | .mem _ => true
  | .ind _ => true

/-- The terms that are instructions. A format C immediate has 32 bits, so it always fits (rule R90). -/
def Instr.wellFormed : Instr → Bool
  | .ld w _ src => src.fits w.bits
  | .st w _ src => src.namesLocation && src.fits w.bits
  | .cmp w _ src => src.fits w.bits
  | .add w _ src => src.fits w.bits
  | .sub w _ src => src.fits w.bits
  | .mul w _ src => src.fits w.bits
  | .div w _ src => src.fits w.bits
  | .mod w _ src => src.fits w.bits
  | .jmp _ => true
  | .je _ => true
  | .jne _ => true
  | .jg _ => true
  | .jge _ => true
  | .jl _ => true
  | .jle _ => true
  | .int _ => true

end Sys2Proof
end

