-- ==== Sys2Proof/Decode.lean ====
section
/-! DEFINITION. The decoder of rule R102 of spec/30_encoding.md over the bytes from ip upward, total on every
list of bytes; the encoder, from the same tables; the length of rule R92; and the byte-order helpers that
memory uses too (rule R55 of spec/20_memory.md). -/

namespace Sys2Proof

/-! ## Byte order -/

/-- The little-endian value of a list of bytes: the first byte is the least significant (rules R53, R80). -/
def leValue : List Byte → Nat
  | [] => 0
  | b :: bs => b.toNat + 256 * leValue bs

/-- The `n` low bytes of `v`, least significant first (rules R54, R80). -/
def leBytes : Nat → Nat → List Byte
  | 0, _ => []
  | n + 1, v => BitVec.ofNat 8 v :: leBytes n (v / 256)

/-! ## Field codes -/

/-- The width byte (rule R85). -/
def decodeWidth (b : Byte) : Option Width :=
  match b.toNat with
  | 0 => some .byte
  | 1 => some .word
  | 2 => some .double
  | _ => none

def encodeWidth : Width → Byte
  | .byte => 0x00#8
  | .word => 0x01#8
  | .double => 0x02#8

/-- The register codes that are legal in an operand (rule R86): 0x00–0x09 and 0x14. -/
def decodeReg (b : Byte) : Option Reg :=
  if h : b.toNat < 10 then some (.r ⟨b.toNat, h⟩)
  else if b.toNat = 0x14 then some .i0
  else none

def encodeReg : Reg → Byte
  | .r n => BitVec.ofNat 8 n.val
  | .i0 => 0x14#8

/-- The format D rows of the opcode map (rule R81). -/
def dataOp : Nat → Option (Width → Dst → Src → Instr)
  | 0x0 => some .ld
  | 0x1 => some .st
  | 0x2 => some .cmp
  | 0x3 => some .add
  | 0x4 => some .sub
  | 0x5 => some .mul
  | 0x6 => some .div
  | 0x7 => some .mod
  | _ => none

/-- The format C rows of the opcode map (rule R81). -/
def controlOp : Nat → Option (Src → Instr)
  | 0x8 => some .jmp
  | 0x9 => some .je
  | 0xA => some .jne
  | 0xB => some .jg
  | 0xC => some .jge
  | 0xD => some .jl
  | 0xE => some .jle
  | 0xF => some .int
  | _ => none

/-! ## The decoder -/

/-- Why decoding stopped (rules R101, R102): the byte at `offset` from ip could not be fetched, or it holds
an illegal `value` of `field`. A one-byte value is zero-extended. -/
inductive Reject where
  | short (offset : Nat)
  | illegal (offset : Nat) (field : DecodeField) (value : BitVec 16)
  deriving DecidableEq, Repr

/-- The place an operand stands in, which says which tags are legal (rules R88, R89, R102). -/
inductive Role where
  | dest
  | stSource
  | source
  deriving DecidableEq, Repr

/-- FetchByte (rule R102): the byte at offset `off`, and what follows it. -/
def takeByte (off : Nat) : List Byte → Except Reject (Byte × List Byte)
  | [] => .error (.short off)
  | b :: bs => .ok (b, bs)

/-- LE_n (rule R102): `n` bytes fetched from offset `off` upward, read little-endian. -/
def takeLE : Nat → Nat → List Byte → Except Reject (Nat × List Byte)
  | 0, _, bs => .ok (0, bs)
  | n + 1, off, bs => do
    let (b, bs) ← takeByte off bs
    let (v, bs) ← takeLE n (off + 1) bs
    return (b.toNat + 256 * v, bs)

/-- A register payload with CheckReg (rule R102). -/
def takeReg (off : Nat) (bs : List Byte) : Except Reject (Reg × List Byte) := do
  let (b, bs) ← takeByte off bs
  match decodeReg b with
  | some k => return (k, bs)
  | none => throw (.illegal off .register (b.setWidth 16))

/-- The legal tags of each role (rule R102). -/
def Role.tagLegal (role : Role) (tag : Byte) : Bool :=
  match role with
  | .dest => decide (tag.toNat ≤ 1)
  | .stSource => decide (tag.toNat ≤ 3) && tag.toNat != 2
  | .source => decide (tag.toNat ≤ 3)

/-- The name of the tag's field: dtag for a destination, else stag (rule R102). -/
def Role.tagField : Role → DecodeField
  | .dest => .dtag
  | .stSource => .stag
  | .source => .stag

/-- DecodeOperand (rule R102): the tag at offset `off` and its payload, with an immediate of `n` bytes. -/
def takeOperand (role : Role) (n off : Nat) (bs : List Byte) : Except Reject (Src × List Byte) := do
  let (tag, bs) ← takeByte off bs
  if role.tagLegal tag then
    match tag.toNat with
    | 0 => do
      let (k, bs) ← takeReg (off + 1) bs
      return (.reg k, bs)
    | 1 => do
      let (a, bs) ← takeLE 4 (off + 1) bs
      return (.mem (BitVec.ofNat 32 a), bs)
    | 2 => do
      let (v, bs) ← takeLE n (off + 1) bs
      return (.imm (BitVec.ofNat 32 v), bs)
    | _ => do
      let (k, bs) ← takeReg (off + 1) bs
      return (.ind k, bs)
  else throw (.illegal off role.tagField (tag.setWidth 16))

/-- A destination operand; DecodeOperand gives it a register or an absolute pointer (rule R88). -/
def takeDst (off : Nat) (bs : List Byte) : Except Reject (Dst × List Byte) := do
  let (tag, bs) ← takeByte off bs
  if Role.dest.tagLegal tag then
    match tag.toNat with
    | 0 => do
      let (k, bs) ← takeReg (off + 1) bs
      return (.reg k, bs)
    | _ => do
      let (a, bs) ← takeLE 4 (off + 1) bs
      return (.mem (BitVec.ofNat 32 a), bs)
  else throw (.illegal off Role.dest.tagField (tag.setWidth 16))

/-- The size of a destination payload (rule R92). -/
def Dst.size : Dst → Nat
  | .reg _ => 1
  | .mem _ => 4

/-- The size of a source payload whose immediates have `n` bytes (rule R92). -/
def Src.size (n : Nat) : Src → Nat
  | .reg _ => 1
  | .mem _ => 4
  | .imm _ => n
  | .ind _ => 1

/-- Decode (rule R102): an instruction and the bytes after it, or the first byte in address order that
cannot be fetched or is illegal. -/
def decode (bs : List Byte) : Except Reject (Instr × List Byte) := do
  let (b0, bs) ← takeByte 0 bs
  let (b1, bs) ← takeByte 1 bs
  let op : BitVec 16 := b1 ++ b0
  match dataOp op.toNat with
  | some mk => do
    let (wb, bs) ← takeByte 2 bs
    match decodeWidth wb with
    | none => throw (.illegal 2 .width (wb.setWidth 16))
    | some w => do
      let (dst, bs) ← takeDst 3 bs
      let (src, bs) ← takeOperand (if op.toNat = 1 then .stSource else .source) w.bytes (4 + dst.size) bs
      return (mk w dst src, bs)
  | none =>
    match controlOp op.toNat with
    | some mk => do
      let (src, bs) ← takeOperand .source 4 2 bs
      return (mk src, bs)
    | none => throw (.illegal 0 .opcode op)

/-- The length of the longest instruction (rule R92). -/
def maxLength : Nat := 13

/-- The length of an instruction in bytes (rule R92). -/
def Instr.length : Instr → Nat
  | .ld w dst src => 5 + dst.size + src.size w.bytes
  | .st w dst src => 5 + dst.size + src.size w.bytes
  | .cmp w dst src => 5 + dst.size + src.size w.bytes
  | .add w dst src => 5 + dst.size + src.size w.bytes
  | .sub w dst src => 5 + dst.size + src.size w.bytes
  | .mul w dst src => 5 + dst.size + src.size w.bytes
  | .div w dst src => 5 + dst.size + src.size w.bytes
  | .mod w dst src => 5 + dst.size + src.size w.bytes
  | .jmp src => 3 + src.size 4
  | .je src => 3 + src.size 4
  | .jne src => 3 + src.size 4
  | .jg src => 3 + src.size 4
  | .jge src => 3 + src.size 4
  | .jl src => 3 + src.size 4
  | .jle src => 3 + src.size 4
  | .int src => 3 + src.size 4

/-! ## The encoder -/

/-- Tag and payload of a destination (rules R86, R87, R91). -/
def encodeDst : Dst → List Byte
  | .reg k => [0x00#8, encodeReg k]
  | .mem a => 0x01#8 :: leBytes 4 a.toNat

/-- Tag and payload of a source whose immediates have `n` bytes (rules R86, R87, R90, R91). -/
def encodeSrc (n : Nat) : Src → List Byte
  | .reg k => [0x00#8, encodeReg k]
  | .mem a => 0x01#8 :: leBytes 4 a.toNat
  | .imm v => 0x02#8 :: leBytes n v.toNat
  | .ind k => [0x03#8, encodeReg k]

/-- Format D (rule R83). -/
def encodeData (op : Nat) (w : Width) (dst : Dst) (src : Src) : List Byte :=
  leBytes 2 op ++ [encodeWidth w] ++ encodeDst dst ++ encodeSrc w.bytes src

/-- Format C (rule R84). -/
def encodeControl (op : Nat) (src : Src) : List Byte :=
  leBytes 2 op ++ encodeSrc 4 src

/-- The bytes of an instruction, in increasing address order (rules R81–R91). -/
def encode : Instr → List Byte
  | .ld w dst src => encodeData 0x0 w dst src
  | .st w dst src => encodeData 0x1 w dst src
  | .cmp w dst src => encodeData 0x2 w dst src
  | .add w dst src => encodeData 0x3 w dst src
  | .sub w dst src => encodeData 0x4 w dst src
  | .mul w dst src => encodeData 0x5 w dst src
  | .div w dst src => encodeData 0x6 w dst src
  | .mod w dst src => encodeData 0x7 w dst src
  | .jmp src => encodeControl 0x8 src
  | .je src => encodeControl 0x9 src
  | .jne src => encodeControl 0xA src
  | .jg src => encodeControl 0xB src
  | .jge src => encodeControl 0xC src
  | .jl src => encodeControl 0xD src
  | .jle src => encodeControl 0xE src
  | .int src => encodeControl 0xF src

/-! ## The opcode table's numbering -/

/-- The bytes of an instruction given as the opcode table numbers its bits: byte k is bits 8k+7..8k, the
bits from `nbits` up are 0, and the list is as long as the longest instruction. -/
def tableBytes (nbits w : Nat) : List Byte := leBytes maxLength (w % 2 ^ nbits)

/-- The instruction the decoder reads from a word of spec/opcode_table.json. -/
def decodeTableWord (nbits w : Nat) : Option Instr :=
  match decode (tableBytes nbits w) with
  | .ok (i, _) => some i
  | .error _ => none

end Sys2Proof
end

