-- ==== Sys2Proof/Config.lean ====
section
/-! DEFINITION. The parameters the spec leaves open (rule R8 of spec/00_scope.md), as plain data that a
state carries and no step changes, and the one free value: what a registered interrupt handler answers
where the launch does not list its answers (rule R190 of spec/44_interrupt.md). -/

namespace Sys2Proof

/-- How `cmp`, `div` and `mod` read their operands (rule R141; decision D11). -/
inductive Signedness where
  | unsigned
  | signed
  deriving DecidableEq, Repr, Inhabited

/-- What signed MIN ÷ −1 does (rule R156; decision D12). -/
inductive SignedDivOverflow where
  | fault
  | wrap
  deriving DecidableEq, Repr, Inhabited

/-- Whether a dispatcher's jump request overrides the advance after `int` (rule R194; decision D16). -/
inductive IntJumpPolicy where
  | handlerJumpOverrides
  | alwaysAdvance
  deriving DecidableEq, Repr, Inhabited

/-- The register file less ip and cf (rule R20): r0–r9, f0–f9 and i0, mutually independent. -/
structure RegFile where
  r : Vector Word 10
  f : Vector Word 10
  i0 : Word
  deriving DecidableEq, Repr

/-- One piece of state a dispatcher may write during an `int` (rule R192). -/
inductive HostWrite where
  | r (n : Fin 10) (v : Word)
  | i0 (v : Word)
  | f (n : Fin 10) (v : Word)
  | cf (v : Byte)
  | mem (a : Word) (v : Byte)
  deriving DecidableEq, Repr

/-- How a dispatcher call ends (rule R190). -/
inductive DispatchOutcome where
  | resume
  | jump (t : Word)
  | terminate
  deriving DecidableEq, Repr, Inhabited

/-- One answer (S', outcome) of the dispatcher (rule R190). S' is given by the writes that lead from S
to it, in order; every S' that rule R192 admits is reached by some list of writes. -/
structure DispatchAnswer where
  writes : List HostWrite
  outcome : DispatchOutcome
  deriving DecidableEq, Repr, Inhabited

/-- The parameters of rule R8. `handlers` and `defaultHandler` are the part of DISPATCH that is fixed at
construction, the interrupt table (rules R190, R232). They stand in the state, and no step or host command changes
them (DESIGN CHOICE, log entry 10). -/
structure Config where
  /-- MEM_SIZE, the number of addressable bytes, 1 ≤ MEM_SIZE ≤ 2^32. -/
  memSize : Nat
  /-- LOAD_BASE, where the loader places the program image (rule R234). -/
  loadBase : Nat
  /-- ENTRY, the ip the loader supplies (rule R38). -/
  entry : Word
  /-- SIGNEDNESS. -/
  signedness : Signedness
  /-- SIGNED_DIV_OVERFLOW. -/
  signedDivOverflow : SignedDivOverflow
  /-- INT_JUMP_POLICY. -/
  intJumpPolicy : IntJumpPolicy
  /-- RESET_REGS, the reset values of r0–r9, i0 and f0–f9 (rule R38). -/
  resetRegs : RegFile
  /-- The interrupt numbers that have a handler of their own (rule R190). -/
  handlers : List Word
  /-- Whether the host registered a default handler (rule R190). -/
  defaultHandler : Bool
  deriving DecidableEq, Repr

/-- MEM_SIZE lies in the range rule R8 gives it. -/
def Config.wf (c : Config) : Bool := decide (1 ≤ c.memSize) && decide (c.memSize ≤ 2 ^ 32)

/-- Registers that are all zero, the default of RESET_REGS (rule R8). -/
def RegFile.zero : RegFile :=
  { r := Vector.replicate 10 0#32, f := Vector.replicate 10 0#32, i0 := 0#32 }

/-- The setting every test vector of spec/95_test_vectors.md assumes: rule R8's defaults, MEM_SIZE = 0x1000,
LOAD_BASE = 0, ENTRY = 0, and the dispatcher of decision D30, which has a handler for number 0 only.
DESIGN CHOICE, log entry 1: the spec gives MEM_SIZE, LOAD_BASE, ENTRY and DISPATCH no default of their own. -/
def Config.testVectors : Config where
  memSize := 0x1000
  loadBase := 0
  entry := 0#32
  signedness := .unsigned
  signedDivOverflow := .fault
  intJumpPolicy := .handlerJumpOverrides
  resetRegs := RegFile.zero
  handlers := [0#32]
  defaultHandler := false

/-- FREE VALUE, log entry 4: what the handler of interrupt `n` answers on the `calls`-th dispatcher call of a
run, in a state with these registers, ip, cf and memory, where the state lists no answer for that call.
Rule R190: "a model must admit every answer the host's handler may give". -/
opaque Config.freeAnswer (calls : Nat) (n : Word) (regs : RegFile) (ip : Word) (cf : Byte)
    (mem : List Host.Cell) : DispatchAnswer

end Sys2Proof
end

