-- ==== Sys2Proof/Machine/State.lean ====
section
/-! DEFINITION. The machine's state, all of it (rules R20, R36, R50 of spec/10_state.md and spec/20_memory.md),
its trap records, and the state after reset (rule R38). -/

namespace Sys2Proof.Machine

/-- Memory as (address, byte) pairs. Canonical form (`Memory.wf`): addresses strictly rising, no entry
equal to `Memory.unlisted`. -/
abbrev Memory := List Host.Cell

/-- What an address that memory does not list reads as. DESIGN CHOICE, log entry 2: memory's contents are a
launch input (rule R52) and the test vectors take every byte they do not list as 0x00. -/
def Memory.unlisted : Byte := 0x00#8

/-- What an access was for, in a MemoryFault's record (rule R202). -/
inductive Access where
  | fetch
  | read
  | write
  deriving DecidableEq, Repr

/-- The operation an ArithmeticError's record names (rule R202). -/
inductive ArithOp where
  | div
  | mod
  deriving DecidableEq, Repr

/-- The four trap kinds (rule R200). -/
inductive TrapKind where
  | decodeError
  | memoryFault
  | arithmeticError
  | unknownInterrupt
  deriving DecidableEq, Repr

/-- A trap with the information it records (rules R101, R202). A DecodeError's one-byte value is
zero-extended to 16 bits (DESIGN CHOICE, log entry 9). -/
inductive Trap where
  | decodeError (ip : Word) (offset : Nat) (field : DecodeField) (value : BitVec 16)
  | memoryFault (ip : Word) (addr : Word) (size : Width) (access : Access)
  | arithmeticError (ip : Word) (op : ArithOp)
  | unknownInterrupt (ip : Word) (number : Word)
  deriving DecidableEq, Repr

/-- The core status (rule R36). -/
inductive Status where
  | running
  | halted
  | trapped (trap : Trap)
  deriving DecidableEq, Repr

/-- Everything the spec gives the core, and the launch it runs in.
The core's own state is `regs` (r0–r9, f0–f9, i0), `ip`, `cf`, `status` (with the trap record) and `mem`.
`cfg` holds rule R8's parameters, fixed for a run. `answers` and `calls` are the MODEL's own fields (log entries
3 and 4): the dispatcher's answers to the calls to come, in order, and the number of calls made so far. -/
structure State where
  regs : RegFile
  ip : Word
  /-- The 8-bit compare-flag cell, bits 2:0 = G, E, L; bits 7:3 are 0 (rule R30). -/
  cf : Byte
  status : Status
  mem : Memory
  cfg : Config
  answers : List DispatchAnswer
  calls : Nat
  deriving DecidableEq, Repr

/-- The reasons a step could stop the model. There are none: every exceptional behaviour of this hardware
is one of the four traps, and a trap is a next state whose status is Trapped (rules R200, R201, R237). -/
inductive Fault where
  deriving DecidableEq, Repr

/-- Why the model gives an instruction no meaning. -/
inductive Refusal where
  /-- An arm of `exec` that has no meaning yet raises it; safe, since the model stops. No arm does now. -/
  | notModelled (mnemonic : String)
  deriving DecidableEq, Repr

/-- The state a core is constructed in (rules R232, R38): its registers at RESET_REGS, ip at ENTRY, cf 0, Running. -/
def State.construct (cfg : Config) (mem : Memory) (answers : List DispatchAnswer) : State where
  regs := cfg.resetRegs
  ip := cfg.entry
  cf := 0x00#8
  status := .running
  mem := mem
  cfg := cfg
  answers := answers
  calls := 0

/-- The state after reset, under the parameters the test vectors use (log entry 1): every register 0 (RESET_REGS's
default), ip = ENTRY = 0, cf = 0, Running (rule R38), no memory listed, and decision D30's one answer, Terminate. -/
def State.reset : State :=
  State.construct Config.testVectors [] [{ writes := [], outcome := .terminate }]

end Sys2Proof.Machine
end

