-- ==== Sys2Proof/Machine/Ops.lean ====
section
/-! DEFINITION. The named operations over memory, registers, ip, cf and the core status; raising a trap, the
core's one exceptional mechanism (rule R201 of spec/60_exceptions.md); and fetching (rule R102). -/

namespace Sys2Proof

/-! ## The register file -/

/-- x[k] of rule R11. -/
def RegFile.get (rf : RegFile) : Reg → Word
  | .r n => rf.r[n.val]
  | .i0 => rf.i0

/-- x[k] <- v of rule R11. -/
def RegFile.set (rf : RegFile) (k : Reg) (v : Word) : RegFile :=
  match k with
  | .r n => { rf with r := rf.r.set n.val v }
  | .i0 => { rf with i0 := v }

/-- A float register write, which only a dispatcher performs (rules R25, R192). -/
def RegFile.setF (rf : RegFile) (n : Fin 10) (v : Word) : RegFile :=
  { rf with f := rf.f.set n.val v }

namespace Machine

/-! ## Memory -/

/-- The byte at an address. -/
def Memory.read : Memory → Nat → Byte
  | [], _ => Memory.unlisted
  | c :: m, a => if c.1 = a then c.2 else Memory.read m a

/-- Memory with `v` listed at `a`, in its place. -/
def Memory.insert : Memory → Nat → Byte → Memory
  | [], a, v => [(a, v)]
  | c :: m, a, v =>
    if a < c.1 then (a, v) :: c :: m
    else if c.1 = a then (a, v) :: m
    else c :: Memory.insert m a v

/-- Memory with nothing listed at `a`. -/
def Memory.erase (m : Memory) (a : Nat) : Memory := m.filter fun c => c.1 != a

/-- mem[a] <- v, in canonical form: writing what an unlisted address reads as removes the entry. -/
def Memory.write (m : Memory) (a : Nat) (v : Byte) : Memory :=
  if v = Memory.unlisted then m.erase a else m.insert a v

/-- The canonical form: addresses strictly rising, no entry equal to `Memory.unlisted`. -/
def Memory.wf : Memory → Bool
  | [] => true
  | c :: m => c.2 != Memory.unlisted && m.all (fun d => decide (c.1 < d.1)) && Memory.wf m

/-- Every listed address is below `size`, so that it exists (rule R50). -/
def Memory.below (m : Memory) (size : Nat) : Bool := m.all fun c => decide (c.1 < size)

/-- The `n` bytes from `a` upward. -/
def Memory.bytes (m : Memory) (a : Nat) : Nat → List Byte
  | 0 => []
  | n + 1 => m.read a :: Memory.bytes m (a + 1) n

/-- The bytes `bs` written from `a` upward. -/
def Memory.writeBytes (m : Memory) (a : Nat) : List Byte → Memory
  | [] => m
  | b :: bs => Memory.writeBytes (m.write a b) (a + 1) bs

/-! ## Updates of the state -/

/-- x[k], the full 32-bit register (rule R11). -/
def State.reg (s : State) (k : Reg) : Word := s.regs.get k

def State.setReg (s : State) (k : Reg) (v : Word) : State := { s with regs := s.regs.set k v }

def State.setIp (s : State) (ip : Word) : State := { s with ip := ip }

/-- cf <- v, which stores zext_8(v[2:0]) (rule R30). -/
def State.setCf (s : State) (v : Byte) : State := { s with cf := v &&& 0x07#8 }

def State.setStatus (s : State) (st : Status) : State := { s with status := st }

def State.setMem (s : State) (m : Memory) : State := { s with mem := m }

/-! ## Traps -/

/-- The kind of a trap (rule R200). -/
def Trap.kind : Trap → TrapKind
  | .decodeError .. => .decodeError
  | .memoryFault .. => .memoryFault
  | .arithmeticError .. => .arithmeticError
  | .unknownInterrupt .. => .unknownInterrupt

/-- The numeric code of a trap kind (rule R200). -/
def TrapKind.code : TrapKind → Nat
  | .decodeError => 1
  | .memoryFault => 2
  | .arithmeticError => 3
  | .unknownInterrupt => 4

/-- The ip a trap records (rule R202). -/
def Trap.ip : Trap → Word
  | .decodeError ip _ _ _ => ip
  | .memoryFault ip _ _ _ => ip
  | .arithmeticError ip _ => ip
  | .unknownInterrupt ip _ => ip

/-- Trap effect (rules R201, R203, R205): status <- Trapped(kind, info); ip and all else stay as they were. There
is no vector and no return from a trap (rule R206); only the host's reset leaves Trapped. -/
def State.raise (s : State) (t : Trap) : State := s.setStatus (.trapped t)

/-- The end of an instruction whose read phase may raise a trap (rules R12, R108): the state its write phase
leaves, or the state before the instruction with the trap raised. -/
def complete (s : State) : Except Trap State → Host.Outcome State Fault Refusal
  | .ok t => .next t
  | .error e => .next (s.raise e)

/-! ## Data access -/

/-- An access of T bytes at `a` is valid (rule R51): a + T ≤ MEM_SIZE, without wrap-around. -/
def State.valid (s : State) (a : Word) (w : Width) : Bool := decide (a.toNat + w.bytes ≤ s.cfg.memSize)

/-- MemRead(a, T) (rule R53). -/
def State.memRead (s : State) (a : Word) (w : Width) : Except Trap (BitVec w.bits) :=
  if s.valid a w then .ok (BitVec.ofNat w.bits (leValue (s.mem.bytes a.toNat w.bytes)))
  else .error (.memoryFault s.ip a w .read)

/-- MemWrite(a, T, v) (rule R54): the range check of the read phase (rule R12), then the T bytes. -/
def State.memWrite (s : State) (a : Word) (w : Width) (v : BitVec w.bits) : Except Trap State :=
  if s.valid a w then .ok (s.setMem (s.mem.writeBytes a.toNat (leBytes w.bytes v.toNat)))
  else .error (.memoryFault s.ip a w .write)

/-! ## The instruction pointer -/

/-- NextIp = (ip + len) mod 2^32 (rules R28, R110). -/
def State.nextIp (s : State) (len : Nat) : Word := s.ip + BitVec.ofNat 32 len

/-- The default advance, ip <- NextIp (rule R27). -/
def State.advance (s : State) (len : Nat) : State := s.setIp (s.nextIp len)

/-! ## Fetch -/

/-- How many bytes the fetch unit can reach from ip, up to the longest instruction (rules R60, R92). -/
def State.fetchable (s : State) : Nat := min maxLength (s.cfg.memSize - s.ip.toNat)

/-- The bytes that FetchByte gives from ip upward (rule R102). Reads have no side effects (rule R59), so the
bytes past the instruction, which the decoder does not look at, stand here without being fetched (rule R111;
DEDUCED, log entry 8). -/
def State.fetchBytes (s : State) : List Byte := s.mem.bytes s.ip.toNat s.fetchable

/-- The trap of a decoding that stopped: a byte at ip + k that cannot be fetched (rule R60) or an illegal
field (rule R101). -/
def State.decodeTrap (s : State) : Reject → Trap
  | .short k => .memoryFault s.ip (s.ip + BitVec.ofNat 32 k) .byte .fetch
  | .illegal off field value => .decodeError s.ip off field value

/-- Decode(ip) (rules R102, R104): the instruction at ip, or the trap its decoding raises. -/
def State.fetchDecode (s : State) : Except Trap Instr :=
  match decode s.fetchBytes with
  | .ok (i, _) => .ok i
  | .error r => .error (s.decodeTrap r)

/-- `bs` stored from ip upward, as far as memory reaches, with the core Running. -/
def State.placeAtIp (s : State) (bs : List Byte) : State :=
  (s.setMem (s.mem.writeBytes s.ip.toNat (bs.take (s.cfg.memSize - s.ip.toNat)))).setStatus .running

end Machine
end Sys2Proof
end

