-- ==== Sys2Proof/Machine/Operands.lean ====
section
/-! DEFINITION. Operand resolution: every form of rules R94–R99 of spec/30_encoding.md, and the sub-word
register read and write of rules R22 and R23 of spec/10_state.md. -/

namespace Sys2Proof.Machine

/-- A location (rule R94): LReg(k) or LMem(a). -/
inductive Loc where
  | reg (k : Reg)
  | mem (a : Word)
  deriving DecidableEq, Repr

/-- Loc(dst) (rule R94). -/
def dstLoc : Dst → Loc
  | .reg k => .reg k
  | .mem a => .mem a

/-- Loc(src) (rule R94), read in the state before the instruction's writes; an immediate has none. -/
def srcLoc (s : State) : Src → Option Loc
  | .reg k => some (.reg k)
  | .mem a => some (.mem a)
  | .imm _ => none
  | .ind k => some (.mem (s.reg k))

/-- The low T bytes of a register (rule R22). -/
def State.readReg (s : State) (k : Reg) (w : Width) : BitVec w.bits := (s.reg k).setWidth w.bits

/-- The mask of the low T bytes (rule R23). -/
def Width.mask (w : Width) : Word := BitVec.ofNat 32 (2 ^ w.bits - 1)

/-- reg = (reg & ~mask) | (new_bits & mask) (rule R23). -/
def maskedWrite (w : Width) (old : Word) (v : BitVec w.bits) : Word :=
  (old &&& ~~~ (Width.mask w)) ||| (v.setWidth 32 &&& Width.mask w)

/-- The masked write of the low T bytes of a register (rule R23). -/
def State.writeReg (s : State) (k : Reg) (w : Width) (v : BitVec w.bits) : State :=
  s.setReg k (maskedWrite w (s.reg k) v)

/-- ReadLoc(loc, T) (rule R95). -/
def State.readLoc (s : State) (l : Loc) (w : Width) : Except Trap (BitVec w.bits) :=
  match l with
  | .reg k => .ok (s.readReg k w)
  | .mem a => s.memRead a w

/-- WriteLoc(loc, T, v) (rule R96), with the range check of a memory location. -/
def State.writeLoc (s : State) (l : Loc) (w : Width) (v : BitVec w.bits) : Except Trap State :=
  match l with
  | .reg k => .ok (s.writeReg k w v)
  | .mem a => s.memWrite a w v

/-- Val(src, T) (rule R97). -/
def State.value (s : State) (src : Src) (w : Width) : Except Trap (BitVec w.bits) :=
  match src with
  | .reg k => .ok (s.readReg k w)
  | .mem a => s.memRead a w
  | .ind k => s.memRead (s.reg k) w
  | .imm v => .ok (v.setWidth w.bits)

/-- Target(src) (rule R98): 32 bits, and no memory is read. -/
def State.target (s : State) : Src → Word
  | .imm v => v
  | .mem a => a
  | .reg k => s.reg k
  | .ind k => s.reg k

/-- Number(src) = Val(src, 4) (rule R99). -/
def State.number (s : State) (src : Src) : Except Trap Word := s.value src .double

end Sys2Proof.Machine
end

