-- ==== Sys2Proof/Machine/Arithmetic.lean ====
section
/-! DEFINITION. `add`, `sub`, `mul`, `div` and `mod` (rules R150–R157 of spec/42_arithmetic.md): exact
arithmetic on the operands' readings, narrowed to the width at the end. -/

namespace Sys2Proof.Machine

/-! ## OP(a, b) -/

/-- rule R150 -/
def opAdd {n : Nat} (a b : BitVec n) : BitVec n := BitVec.ofNat n (a.toNat + b.toNat)

/-- rule R151 -/
def opSub {n : Nat} (a b : BitVec n) : BitVec n := BitVec.ofInt n ((a.toNat : Int) - b.toNat)

/-- rule R152 -/
def opMul {n : Nat} (a b : BitVec n) : BitVec n := BitVec.ofNat n (a.toNat * b.toNat)

/-- Signed MIN ÷ −1 (rule R156): the one quotient that has no n-bit two's-complement value. -/
def signedOverflows {n : Nat} (a b : BitVec n) : Bool :=
  decide (a.toInt = -(2 ^ (n - 1) : Int)) && decide (b.toInt = -1)

/-- OP_div (rule R153). `ip` is the address the trap records. The signed branch follows rule R156, which the spec
supplies from general knowledge (log entry 12). -/
def opDiv (cfg : Config) (ip : Word) {n : Nat} (a b : BitVec n) : Except Trap (BitVec n) :=
  if b.toNat = 0 then .error (.arithmeticError ip .div)
  else match cfg.signedness with
    | .unsigned => .ok (BitVec.ofNat n (a.toNat / b.toNat))
    | .signed =>
      if signedOverflows a b then
        match cfg.signedDivOverflow with
        | .fault => .error (.arithmeticError ip .div)
        | .wrap => .ok a
      else .ok (BitVec.ofInt n (a.toInt.tdiv b.toInt))

/-- OP_mod (rule R154). -/
def opMod (cfg : Config) (ip : Word) {n : Nat} (a b : BitVec n) : Except Trap (BitVec n) :=
  if b.toNat = 0 then .error (.arithmeticError ip .mod)
  else match cfg.signedness with
    | .unsigned => .ok (BitVec.ofNat n (a.toNat % b.toNat))
    | .signed =>
      if signedOverflows a b then
        match cfg.signedDivOverflow with
        | .fault => .error (.arithmeticError ip .mod)
        | .wrap => .ok (BitVec.ofNat n 0)
      else .ok (BitVec.ofInt n (a.toInt - a.toInt.tdiv b.toInt * b.toInt))

/-! ## The instructions -/

/-- The shape of the family (rule R155): the destination read, the source read, the operation, the write. -/
def arith (w : Width) (dst : Dst) (src : Src) (len : Nat)
    (op : BitVec w.bits → BitVec w.bits → Except Trap (BitVec w.bits)) (s : State) :
    Host.Outcome State Fault Refusal :=
  complete s do
    let a ← s.readLoc (dstLoc dst) w
    let b ← s.value src w
    let r ← op a b
    let t ← s.writeLoc (dstLoc dst) w r
    return t.advance len

/-- `add_T dst, src` (rule R150). -/
def execAdd (w : Width) (dst : Dst) (src : Src) (s : State) : Host.Outcome State Fault Refusal :=
  arith w dst src (Instr.add w dst src).length (fun a b => .ok (opAdd a b)) s

/-- `sub_T dst, src` (rule R151). -/
def execSub (w : Width) (dst : Dst) (src : Src) (s : State) : Host.Outcome State Fault Refusal :=
  arith w dst src (Instr.sub w dst src).length (fun a b => .ok (opSub a b)) s

/-- `mul_T dst, src` (rule R152). -/
def execMul (w : Width) (dst : Dst) (src : Src) (s : State) : Host.Outcome State Fault Refusal :=
  arith w dst src (Instr.mul w dst src).length (fun a b => .ok (opMul a b)) s

/-- `div_T dst, src` (rule R153). -/
def execDiv (w : Width) (dst : Dst) (src : Src) (s : State) : Host.Outcome State Fault Refusal :=
  arith w dst src (Instr.div w dst src).length (fun a b => opDiv s.cfg s.ip a b) s

/-- `mod_T dst, src` (rule R154). -/
def execMod (w : Width) (dst : Dst) (src : Src) (s : State) : Host.Outcome State Fault Refusal :=
  arith w dst src (Instr.mod w dst src).length (fun a b => opMod s.cfg s.ip a b) s

end Sys2Proof.Machine
end

