-- ==== Sys2Proof/Machine/Flags.lean ====
section
/-! DEFINITION. The compare flags: what `cmp` computes (rules R140, R141 of spec/41_compare.md) and what each
conditional jump asks of cf (rules R173–R178 of spec/43_control_transfer.md). No other flag exists (rule R30). -/

namespace Sys2Proof.Machine

/-- The reading of an operand that SIGNEDNESS selects (rule R140). -/
def reading (sg : Signedness) {n : Nat} (v : BitVec n) : Int :=
  match sg with
  | .unsigned => (v.toNat : Int)
  | .signed => v.toInt

/-- cf after comparing the readings x and y: G, E or L (rule R140). -/
def compareFlags (x y : Int) : Byte :=
  if x > y then 0b00000100#8
  else if x = y then 0b00000010#8
  else 0b00000001#8

/-- cf bit 2, Greater (rule R30). -/
def greater (cf : Byte) : Bool := cf.getLsbD 2

/-- cf bit 1, Equal (rule R30). -/
def equal (cf : Byte) : Bool := cf.getLsbD 1

/-- cf bit 0, Less (rule R30). -/
def less (cf : Byte) : Bool := cf.getLsbD 0

/-- rule R173 -/
def condJe (cf : Byte) : Bool := equal cf

/-- rule R174 -/
def condJne (cf : Byte) : Bool := !equal cf

/-- rule R175 -/
def condJg (cf : Byte) : Bool := greater cf

/-- rule R176 -/
def condJge (cf : Byte) : Bool := greater cf || equal cf

/-- rule R177 -/
def condJl (cf : Byte) : Bool := less cf

/-- rule R178 -/
def condJle (cf : Byte) : Bool := equal cf || less cf

end Sys2Proof.Machine
end

