-- ==== Sys2Proof/Machine/Compare.lean ====
section
/-! DEFINITION. `cmp` (rule R140 of spec/41_compare.md). -/

namespace Sys2Proof.Machine

/-- `cmp_T dst, src` (rule R140): the destination is the left-hand value and is read first. -/
def execCmp (w : Width) (dst : Dst) (src : Src) (s : State) : Host.Outcome State Fault Refusal :=
  complete s do
    let a ← s.readLoc (dstLoc dst) w
    let b ← s.value src w
    let sg := s.cfg.signedness
    return (s.setCf (compareFlags (reading sg a) (reading sg b))).advance (Instr.cmp w dst src).length

end Sys2Proof.Machine
end

