-- ==== Sys2Proof/Machine/ControlTransfer.lean ====
section
/-! DEFINITION. `jmp` and the six conditional jumps (rules R170–R179 of spec/43_control_transfer.md). -/

namespace Sys2Proof.Machine

/-- A jump whose condition is `taken` (rule R171); the target is not checked against memory (rule R172). -/
def jumpIf (taken : Bool) (src : Src) (len : Nat) (s : State) : Host.Outcome State Fault Refusal :=
  .next (if taken then s.setIp (s.target src) else s.advance len)

/-- `jmp opnd` (rule R170). -/
def execJmp (src : Src) (s : State) : Host.Outcome State Fault Refusal :=
  .next (s.setIp (s.target src))

/-- `je opnd` (rule R173). -/
def execJe (src : Src) (s : State) : Host.Outcome State Fault Refusal :=
  jumpIf (condJe s.cf) src (Instr.je src).length s

/-- `jne opnd` (rule R174). -/
def execJne (src : Src) (s : State) : Host.Outcome State Fault Refusal :=
  jumpIf (condJne s.cf) src (Instr.jne src).length s

/-- `jg opnd` (rule R175). -/
def execJg (src : Src) (s : State) : Host.Outcome State Fault Refusal :=
  jumpIf (condJg s.cf) src (Instr.jg src).length s

/-- `jge opnd` (rule R176). -/
def execJge (src : Src) (s : State) : Host.Outcome State Fault Refusal :=
  jumpIf (condJge s.cf) src (Instr.jge src).length s

/-- `jl opnd` (rule R177). -/
def execJl (src : Src) (s : State) : Host.Outcome State Fault Refusal :=
  jumpIf (condJl s.cf) src (Instr.jl src).length s

/-- `jle opnd` (rule R178). -/
def execJle (src : Src) (s : State) : Host.Outcome State Fault Refusal :=
  jumpIf (condJle s.cf) src (Instr.jle src).length s

end Sys2Proof.Machine
end

