-- ==== Sys2Proof/Machine/Interrupt.lean ====
section
/-! DEFINITION. `int` and the dispatcher interface (rules R190–R195 of spec/44_interrupt.md). The dispatcher is
an input: the answers it will give stand in the state, in call order, and an answer the state does not list
is a free value (log entries 3 and 4). -/

namespace Sys2Proof.Machine

/-- One write of a dispatcher (rule R192). cf keeps bits 2:0 only (rule R30); a byte outside memory does not
exist, and writing it does nothing (rule R50; DEDUCED, log entry 11). -/
def State.hostWrite (s : State) : HostWrite → State
  | .r n v => s.setReg (.r n) v
  | .i0 v => s.setReg .i0 v
  | .f n v => { s with regs := s.regs.setF n v }
  | .cf v => s.setCf v
  | .mem a v => if a.toNat < s.cfg.memSize then s.setMem (s.mem.write a.toNat v) else s

/-- The registers, cf and memory of S' (rule R191), from S and the dispatcher's writes. -/
def State.hostWrites (s : State) (ws : List HostWrite) : State := ws.foldl State.hostWrite s

/-- Interrupt `n` has a handler of its own or the host registered a default one (rule R190). Whether there is a
handler depends on the number alone, and a handler always answers (DEDUCED, log entry 13). -/
def State.hasHandler (s : State) (n : Word) : Bool := s.cfg.handlers.contains n || s.cfg.defaultHandler

/-- DISPATCH(n, S) (rule R190): none is NoHandler. -/
def State.dispatch (s : State) (n : Word) : Option DispatchAnswer :=
  if s.hasHandler n then
    match s.answers with
    | a :: _ => some a
    | [] => some (Config.freeAnswer s.calls n s.regs s.ip s.cf s.mem)
  else none

/-- The call is made: its answer, if listed, is used up. -/
def State.noteCall (s : State) : State := { s with answers := s.answers.tail, calls := s.calls + 1 }

/-- ip and status after a dispatcher call (rules R191, R193–R195). -/
def State.finishInt (s : State) (len : Nat) : DispatchOutcome → State
  | .resume => s.advance len
  | .jump t =>
    match s.cfg.intJumpPolicy with
    | .handlerJumpOverrides => s.setIp t
    | .alwaysAdvance => s.advance len
  | .terminate => (s.advance len).setStatus .halted

/-- `int opnd` (rule R191). -/
def execInt (src : Src) (s : State) : Host.Outcome State Fault Refusal :=
  complete s do
    let n ← s.number src
    match s.dispatch n with
    | none => throw (.unknownInterrupt s.ip n)
    | some a => return (s.noteCall.hostWrites a.writes).finishInt (Instr.int src).length a.outcome

end Sys2Proof.Machine
end

