-- ==== Sys2Proof/Machine/LoadStore.lean ====
section
/-! DEFINITION. `ld` and `st` (rules R130, R131 of spec/40_load_store.md). -/

namespace Sys2Proof.Machine

/-- `ld_T dst, src` (rule R130): the source read, then the destination's range check. -/
def execLd (w : Width) (dst : Dst) (src : Src) (s : State) : Host.Outcome State Fault Refusal :=
  complete s do
    let v ← s.value src w
    let t ← s.writeLoc (dstLoc dst) w v
    return t.advance (Instr.ld w dst src).length

/-- `st_T dst, src` (rule R131): the value is the destination field's, the location is the source's. An
immediate names no location; its tag, right after the destination, is the DecodeError of rule R89. No encoding holds
such a term, so no step meets it (DESIGN CHOICE, log entry 7). -/
def execSt (w : Width) (dst : Dst) (src : Src) (s : State) : Host.Outcome State Fault Refusal :=
  complete s do
    match srcLoc s src with
    | none => throw (.decodeError s.ip (4 + dst.size) .stag 0x0002#16)
    | some l => do
      let v ← s.readLoc (dstLoc dst) w
      let t ← s.writeLoc l w v
      return t.advance (Instr.st w dst src).length

end Sys2Proof.Machine
end

