-- ==== Sys2Proof/Machine/Dispatch.lean ====
section
/-! DEFINITION. Execute (rule R107 of spec/30_encoding.md): one arm per constructor of Instr. -/

namespace Sys2Proof.Machine

/-- Execute(insn): the rule of the instruction's operation (rule R107). -/
def exec (i : Instr) (s : State) : Host.Outcome State Fault Refusal :=
  match i with
  | .ld w dst src => Sys2Proof.Machine.execLd w dst src s
  | .st w dst src => Sys2Proof.Machine.execSt w dst src s
  | .cmp w dst src => Sys2Proof.Machine.execCmp w dst src s
  | .add w dst src => Sys2Proof.Machine.execAdd w dst src s
  | .sub w dst src => Sys2Proof.Machine.execSub w dst src s
  | .mul w dst src => Sys2Proof.Machine.execMul w dst src s
  | .div w dst src => Sys2Proof.Machine.execDiv w dst src s
  | .mod w dst src => Sys2Proof.Machine.execMod w dst src s
  | .jmp src => Sys2Proof.Machine.execJmp src s
  | .je src => Sys2Proof.Machine.execJe src s
  | .jne src => Sys2Proof.Machine.execJne src s
  | .jg src => Sys2Proof.Machine.execJg src s
  | .jge src => Sys2Proof.Machine.execJge src s
  | .jl src => Sys2Proof.Machine.execJl src s
  | .jle src => Sys2Proof.Machine.execJle src s
  | .int src => Sys2Proof.Machine.execInt src s

end Sys2Proof.Machine
end

