-- ==== Sys2Proof/Machine/Step.lean ====
section
/-! DEFINITION. The core's only step (rule R105 of spec/30_encoding.md), and the placing of one instruction
where the next step fetches it. -/

namespace Sys2Proof.Machine

/-- Step (rule R105): decode at ip and execute, when Running; a Halted or Trapped core changes nothing
(rule R237). A trap raised in decoding ends the step as any trap does (rule R108). -/
def step (s : State) : Host.Outcome State Fault Refusal :=
  match s.status with
  | .running =>
    match s.fetchDecode with
    | .ok i => exec i s
    | .error t => .next (s.raise t)
  | .halted => .next s
  | .trapped _ => .next s

/-- `s` with an instruction of the opcode table's numbering stored at ip, the core Running (log entry 5). -/
def State.withFetchWord (s : State) (nbits w : Nat) : State := s.placeAtIp (tableBytes nbits w)

end Sys2Proof.Machine
end

