-- ==== Sys2Proof/Machine/HostControl.lean ====
section
/-! DEFINITION. The host's side of the core (rules R230–R241 of spec/70_reset_and_hazards.md): what the host may
do between steps. None of it is part of `step` (DESIGN CHOICE, log entry 14). -/

namespace Sys2Proof.Machine

/-- reset() (rules R230, R231): the registers, cf, ip and status take their reset values; memory stays. -/
def State.hostReset (s : State) : State :=
  { s with regs := s.cfg.resetRegs, ip := s.cfg.entry, cf := 0x00#8, status := .running }

/-- A halt request between instructions (rule R209). It stops a Running core; a Trapped core keeps its trap,
since only reset() leaves Trapped (rules R206, R224). DEDUCED, log entry 6. -/
def State.hostHalt (s : State) : State :=
  match s.status with
  | .running => s.setStatus .halted
  | .halted => s
  | .trapped _ => s

/-- The image fits (rule R234): LOAD_BASE + image length ≤ MEM_SIZE. -/
def Config.imageFits (c : Config) (image : List Byte) : Bool :=
  decide (c.loadBase + image.length ≤ c.memSize)

/-- The loader's part (rule R234): the image's bytes at LOAD_BASE upward; none where the image does not fit
(DESIGN CHOICE, log entry 15). -/
def State.loadImage (s : State) (image : List Byte) : Option State :=
  if Config.imageFits s.cfg image then some (s.setMem (s.mem.writeBytes s.cfg.loadBase image)) else none

/-- The core after the boot order of rule R235: constructed, loaded, reset. -/
def State.boot (cfg : Config) (rest : Memory) (answers : List DispatchAnswer) (image : List Byte) : Option State :=
  ((State.construct cfg rest answers).loadImage image).map State.hostReset

/-- How far a run has come (rule R238): it has returned, in a Halted or Trapped state, or it goes on from a Running
one. -/
inductive Run where
  | returned (s : State)
  | going (s : State)
  deriving DecidableEq, Repr

/-- A run that has come to `s` has returned unless `s` is Running (rule R238). -/
def State.runAt (s : State) : Run :=
  match s.status with
  | .running => .going s
  | .halted => .returned s
  | .trapped _ => .returned s

/-- run_until_halt_or_trap() (rule R238) with the host's halt requests (rules R209, R240). The list has one entry for
each point at which a step would begin, in order: true where a halt request falls there, before the step. The run
returns at the first state that is not Running; where the list ends first, it is still going (log entry 14). -/
def runUntilStopped : List Bool → State → Host.Outcome Run Fault Refusal
  | [], s => .next s.runAt
  | halt :: later, s =>
    match s.status with
    | .running =>
      if halt then .next s.hostHalt.runAt
      else
        match step s with
        | .next t => runUntilStopped later t
        | .fault r => .fault r
        | .refused r => .refused r
    | .halted => .next (.returned s)
    | .trapped _ => .next (.returned s)

/-- A run from `s` may return `t`: it does so under some requests of the host. -/
def State.runReturns (s t : State) : Prop := ∃ halts, runUntilStopped halts s = .next (.returned t)

/-- A run from `s` that the host leaves alone never returns (rule R238). -/
def State.runsForever (s : State) : Prop :=
  ∀ k, ∃ t, runUntilStopped (List.replicate k false) s = .next (.going t)

/-- What a snapshot shows besides memory (rule R241). -/
structure Snapshot where
  regs : RegFile
  ip : Word
  cf : Byte
  status : Status
  deriving DecidableEq, Repr

/-- The registers, core status and trap record, read without changing anything (rule R241). -/
def State.snapshot (s : State) : Snapshot where
  regs := s.regs
  ip := s.ip
  cf := s.cf
  status := s.status

/-- The byte at an address in a snapshot (rule R241); none where memory has no such byte. -/
def State.snapshotByte (s : State) (a : Nat) : Option Byte :=
  if a < s.cfg.memSize then some (s.mem.read a) else none

end Sys2Proof.Machine
end

