-- ==== Sys2Proof/Safety.lean ====
section
/-! DEFINITION. The terms in which statements speak: the invariant of the state, what an operand can reach, and
what an instruction leaves alone. -/

namespace Sys2Proof.Machine

/-- The invariant that every step keeps: MEM_SIZE in its range (rule R8); memory in canonical form and listing
only addresses that exist (rule R50); cf bits 7:3 zero (rule R30); a trap record naming ip (rules R202, R203). -/
structure State.Inv (s : State) : Prop where
  memSize : s.cfg.wf = true
  memCanonical : s.mem.wf = true
  memBelow : s.mem.below s.cfg.memSize = true
  cfUpper : s.cf &&& 0xF8#8 = 0#8
  trapIp : ∀ t, s.status = .trapped t → t.ip = s.ip

/-- The T bytes of a location exist (rule R51); a register always does. -/
def State.reaches (s : State) (l : Loc) (w : Width) : Prop :=
  ∀ a, l = .mem a → a.toNat + w.bytes ≤ s.cfg.memSize

/-- The T bytes an operand's value is read from exist; a register and an immediate are always readable. -/
def State.readable (s : State) (src : Src) (w : Width) : Prop :=
  ∀ a, srcLoc s src = some (.mem a) → a.toNat + w.bytes ≤ s.cfg.memSize

/-- The address `a` is one of the T bytes a location covers; a register covers none. -/
def Loc.covers (l : Loc) (w : Width) (a : Nat) : Prop :=
  match l with
  | .reg _ => False
  | .mem b => b.toNat ≤ a ∧ a < b.toNat + w.bytes

/-- `t` has the launch of `s`: the parameters, and the dispatcher's answers and count of calls. -/
structure SameLaunch (s t : State) : Prop where
  cfg : t.cfg = s.cfg
  answers : t.answers = s.answers
  calls : t.calls = s.calls

/-- Apart from ip, cf and the status, `t` differs from `s` at most in the location `l` at width `w`: a register
location may change below bit 8T, a memory location in the bytes it covers. -/
structure WritesOnly (l : Loc) (w : Width) (s t : State) : Prop where
  otherRegs : ∀ k, l ≠ .reg k → t.reg k = s.reg k
  upperBits : ∀ k i, w.bits ≤ i → (t.reg k).getLsbD i = (s.reg k).getLsbD i
  floats : t.regs.f = s.regs.f
  bytes : ∀ a, ¬ l.covers w a → t.mem.read a = s.mem.read a
  launch : SameLaunch s t

/-- The data instruction `i` completes from `s` in `t`: it may have written location `l` at width `w`, ip is past
the instruction, and cf and the status are as before. -/
structure Completes (i : Instr) (l : Loc) (w : Width) (s t : State) : Prop where
  runs : exec i s = .next t
  only : WritesOnly l w s t
  ip : t.ip = s.ip + BitVec.ofNat 32 i.length
  cf : t.cf = s.cf
  status : t.status = s.status

/-- Apart from ip, cf and the status, `t` is `s`: no register and no byte of memory differs. -/
structure WritesNothing (s t : State) : Prop where
  regs : t.regs = s.regs
  mem : t.mem = s.mem
  launch : SameLaunch s t

end Sys2Proof.Machine
end

