-- ==== Sys2Proof/Certificates/Slice0/Obligations.lean ====
section
/-! DEFINITION. The statements for the provers, from the numbered rules of spec/. -/

open Sys2Proof Sys2Proof.Machine

/-! ## Encoding -/

/-- Rule R120: the six example encodings, written out there byte by byte, decode to the instructions they
stand for, and each list is the instruction whole. (The numbers are the spec's own choice, decisions D2–D8.) -/
def Obligations.DecodesTheSpecsExamples : Prop :=
  decode [0x00#8, 0x00#8, 0x01#8, 0x00#8, 0x02#8, 0x01#8, 0x00#8, 0x01#8, 0x00#8, 0x00#8] =
      .ok (.ld .word (.reg (.r 2)) (.mem 0x100#32), []) ∧
    decode [0x02#8, 0x00#8, 0x02#8, 0x00#8, 0x00#8, 0x00#8, 0x01#8] =
      .ok (.cmp .double (.reg (.r 0)) (.reg (.r 1)), []) ∧
    decode [0x03#8, 0x00#8, 0x02#8, 0x00#8, 0x00#8, 0x02#8, 0x01#8, 0x00#8, 0x00#8, 0x00#8] =
      .ok (.add .double (.reg (.r 0)) (.imm 1#32), []) ∧
    decode [0x08#8, 0x00#8, 0x02#8, 0x1F#8, 0x00#8, 0x00#8, 0x00#8] = .ok (.jmp (.imm 0x1F#32), []) ∧
    decode [0x0F#8, 0x00#8, 0x02#8, 0x00#8, 0x00#8, 0x00#8, 0x00#8] = .ok (.int (.imm 0#32), []) ∧
    decode [0x08#8, 0x00#8, 0x00#8, 0x03#8] = .ok (.jmp (.reg (.r 3)), [])

/-- Every well-formed instruction, with every operand at every value its encoding admits, is what the decoder
reads from its own encoding, whatever follows it (rules R81–R91, R102). -/
def Obligations.DecodeOfEncodeIsTheInstruction : Prop :=
  ∀ (i : Instr) (rest : List Byte), i.wellFormed = true → decode (encode i ++ rest) = .ok (i, rest)

/-- Whatever the decoder accepts is a well-formed instruction, and the bytes it consumed are that instruction's
one encoding: no two byte strings mean the same instruction, and no reserved encoding is accepted (R100). -/
def Obligations.DecodedBytesAreTheEncoding : Prop :=
  ∀ (bs rest : List Byte) (i : Instr), decode bs = .ok (i, rest) →
    i.wellFormed = true ∧ bs = encode i ++ rest

/-- Rule R92: the length of each format from its operand forms, the bounds of each format, and that they are
reached. (The layout is the spec's own choice, decisions D3 and D7.) -/
def Obligations.InstructionLengths : Prop :=
  (∀ mk ∈ [Instr.ld, Instr.st, Instr.cmp, Instr.add, Instr.sub, Instr.mul, Instr.div, Instr.mod],
    ∀ (w : Width) (dst : Dst) (src : Src),
      (encode (mk w dst src)).length =
          5 + (match dst with | .reg _ => 1 | .mem _ => 4) +
            (match src with | .reg _ => 1 | .ind _ => 1 | .mem _ => 4 | .imm _ => w.bytes) ∧
        (mk w dst src).length = (encode (mk w dst src)).length ∧
        7 ≤ (mk w dst src).length ∧ (mk w dst src).length ≤ 13) ∧
  (∀ mk ∈ [Instr.jmp, Instr.je, Instr.jne, Instr.jg, Instr.jge, Instr.jl, Instr.jle, Instr.int],
    ∀ (src : Src),
      (encode (mk src)).length =
          3 + (match src with | .reg _ => 1 | .ind _ => 1 | .mem _ => 4 | .imm _ => 4) ∧
        (mk src).length = (encode (mk src)).length ∧
        ((mk src).length = 4 ∨ (mk src).length = 7)) ∧
  (∃ w dst src, (Instr.ld w dst src).length = 7) ∧ (∃ w dst src, (Instr.ld w dst src).length = 13)

/-- Rules R100–R102: each kind of illegal field is rejected by name, with its offset and value, whatever the bytes
after it: an opcode above 0x000F; then, behind legal fields, a width byte above 2, a dtag above 1, an stag
above 3 or the stag of an `st` immediate, and a register code that rule R86 does not list. -/
def Obligations.IllegalFieldsAreRejected : Prop :=
  (∀ (b0 b1 : Byte) (rest : List Byte), 0x000F < (b1 ++ b0).toNat →
    decode (b0 :: b1 :: rest) = .error (.illegal 0 .opcode (b1 ++ b0))) ∧
  (∀ (op : Nat) (b : Byte) (rest : List Byte), op ≤ 7 → 2 < b.toNat →
    decode (leBytes 2 op ++ b :: rest) = .error (.illegal 2 .width (b.setWidth 16))) ∧
  (∀ (op : Nat) (w : Width) (b : Byte) (rest : List Byte), op ≤ 7 → 1 < b.toNat →
    decode (leBytes 2 op ++ encodeWidth w :: b :: rest) = .error (.illegal 3 .dtag (b.setWidth 16))) ∧
  (∀ (op : Nat) (w : Width) (b : Byte) (rest : List Byte), op ≤ 7 → 10 ≤ b.toNat → b.toNat ≠ 0x14 →
    decode (leBytes 2 op ++ encodeWidth w :: 0x00#8 :: b :: rest) =
      .error (.illegal 4 .register (b.setWidth 16))) ∧
  (∀ (op : Nat) (w : Width) (dst : Dst) (b : Byte) (rest : List Byte), op ≤ 7 →
    (3 < b.toNat ∨ (op = 1 ∧ b.toNat = 2)) →
    decode (leBytes 2 op ++ encodeWidth w :: (encodeDst dst ++ b :: rest)) =
      .error (.illegal (3 + (encodeDst dst).length) .stag (b.setWidth 16))) ∧
  (∀ (op : Nat) (w : Width) (dst : Dst) (tag b : Byte) (rest : List Byte), op ≤ 7 →
    (tag = 0x00#8 ∨ tag = 0x03#8) → 10 ≤ b.toNat → b.toNat ≠ 0x14 →
    decode (leBytes 2 op ++ encodeWidth w :: (encodeDst dst ++ tag :: b :: rest)) =
      .error (.illegal (4 + (encodeDst dst).length) .register (b.setWidth 16))) ∧
  (∀ (op : Nat) (b : Byte) (rest : List Byte), 8 ≤ op → op ≤ 0xF → 3 < b.toNat →
    decode (leBytes 2 op ++ b :: rest) = .error (.illegal 2 .stag (b.setWidth 16))) ∧
  (∀ (op : Nat) (tag b : Byte) (rest : List Byte), 8 ≤ op → op ≤ 0xF → (tag = 0x00#8 ∨ tag = 0x03#8) →
    10 ≤ b.toNat → b.toNat ≠ 0x14 →
    decode (leBytes 2 op ++ tag :: b :: rest) = .error (.illegal 3 .register (b.setWidth 16)))

/-! ## The instruction cycle -/

/-- A step of a Running core is `exec` of the instruction its decoder reads from the bytes at ip, at that state;
those bytes are memory's, from ip upward, and `exec`'s own length is the number of bytes decoded (R105, R110). -/
def Obligations.StepRunsTheDecodedInstruction : Prop :=
  ∀ (s : State) (i : Instr) (rest : List Byte), s.status = .running →
    decode s.fetchBytes = .ok (i, rest) →
    step s = exec i s ∧ s.fetchBytes.length = i.length + rest.length ∧
      s.ip.toNat + s.fetchBytes.length ≤ max s.ip.toNat s.cfg.memSize ∧
      ∀ (k : Nat) (h : k < s.fetchBytes.length), s.fetchBytes[k] = s.mem.read (s.ip.toNat + k)

/-- Where the bytes of memory from ip upward are an instruction's encoding, the step of a Running core runs that
instruction (rules R80, R105, R106), whoever wrote those bytes (rule R66). -/
def Obligations.StepRunsTheEncodedBytes : Prop :=
  ∀ (s : State) (i : Instr), s.status = .running → i.wellFormed = true →
    s.ip.toNat + (encode i).length ≤ s.cfg.memSize →
    (∀ (k : Nat) (h : k < (encode i).length), s.mem.read (s.ip.toNat + k) = (encode i)[k]) →
    step s = exec i s

/-- Rules R108, R101, R60: a decoding that stops ends the step with its trap and changes nothing else. -/
def Obligations.StoppedDecodingTraps : Prop :=
  (∀ (s : State) (off : Nat) (field : DecodeField) (value : BitVec 16), s.status = .running →
    decode s.fetchBytes = .error (.illegal off field value) →
    step s = .next { s with status := .trapped (.decodeError s.ip off field value) }) ∧
  (∀ (s : State) (off : Nat), s.status = .running → decode s.fetchBytes = .error (.short off) →
    s.ip.toNat + off ≥ s.cfg.memSize ∧
    step s = .next { s with
      status := .trapped (.memoryFault s.ip (s.ip + BitVec.ofNat 32 off) .byte .fetch) })

/-- Rule R172: a jump to a target outside memory completes without fault, and the step after it raises
MemoryFault at the target; an instruction that begins inside memory and does not end there faults at the
first byte past the top. (Decisions D14 and D18 of the spec.) -/
def Obligations.JumpOutsideMemoryFaultsAtTheNextFetch : Prop :=
  (∀ mk ∈ [Instr.jmp, Instr.je, Instr.jne, Instr.jg, Instr.jge, Instr.jl, Instr.jle],
    ∀ (s t : State) (src : Src), s.status = .running → exec (mk src) s = .next t →
      s.cfg.memSize ≤ t.ip.toNat →
      t.status = .running ∧
        step t = .next { t with status := .trapped (.memoryFault t.ip t.ip .byte .fetch) }) ∧
  (∀ (s : State) (i : Instr) (k : Nat), s.status = .running → i.wellFormed = true →
    k < (encode i).length → s.ip.toNat + k = s.cfg.memSize →
    (∀ (j : Nat) (h : j < (encode i).length), j < k → s.mem.read (s.ip.toNat + j) = (encode i)[j]) →
    step s = .next { s with
      status := .trapped (.memoryFault s.ip (BitVec.ofNat 32 s.cfg.memSize) .byte .fetch) })

/-- Placing a word of the opcode table's numbering at ip makes the next step run the instruction the decoder reads
from it, where the longest instruction fits in memory there. The placing is the model's (log entry 5). -/
def Obligations.PlacedWordIsRunNext : Prop :=
  ∀ (s : State) (nbits w : Nat) (i : Instr), decodeTableWord nbits w = some i →
    s.ip.toNat + 13 ≤ s.cfg.memSize →
    step (s.withFetchWord nbits w) = exec i (s.withFetchWord nbits w)

/-! ## Memory and registers -/

/-- Rule R53: a valid read answers the bytes at a … a+T−1, the lowest address least significant; any other raises
MemoryFault(a, T, read). (Decisions D1 and D17 of the spec.) -/
def Obligations.MemReadIsLittleEndian : Prop :=
  ∀ (s : State) (a : Word) (w : Width),
    (a.toNat + w.bytes ≤ s.cfg.memSize → ∃ v, s.memRead a w = .ok v ∧
      ∀ i < w.bytes, v.extractLsb' (8 * i) 8 = s.mem.read (a.toNat + i)) ∧
    (s.cfg.memSize < a.toNat + w.bytes → s.memRead a w = .error (.memoryFault s.ip a w .read))

/-- Rule R54: a valid write stores byte i of v at a+i and changes no other byte and nothing else; any other raises
MemoryFault(a, T, write), with no state to change. (Decisions D1 and D17 of the spec.) -/
def Obligations.MemWriteStoresItsBytes : Prop :=
  ∀ (s : State) (a : Word) (w : Width) (v : BitVec w.bits),
    (a.toNat + w.bytes ≤ s.cfg.memSize → ∃ t, s.memWrite a w v = .ok t ∧ t = { s with mem := t.mem } ∧
      (∀ i < w.bytes, t.mem.read (a.toNat + i) = v.extractLsb' (8 * i) 8) ∧
      ∀ c, (c < a.toNat ∨ a.toNat + w.bytes ≤ c) → t.mem.read c = s.mem.read c) ∧
    (s.cfg.memSize < a.toNat + w.bytes → s.memWrite a w v = .error (.memoryFault s.ip a w .write))

/-- Rule R56: a read of any width inside four bytes just written sees those bytes, whatever width wrote them, and
the rule's example. -/
def Obligations.MixedWidthReadsSeeTheBytes : Prop :=
  (∀ (s : State) (a : Word) (v : Word) (w : Width) (k : Nat), a.toNat + 4 ≤ s.cfg.memSize →
    s.cfg.wf = true → k + w.bytes ≤ 4 →
    ∃ t, s.memWrite a .double v = .ok t ∧
      t.memRead (a + BitVec.ofNat 32 k) w = .ok (v.extractLsb' (8 * k) w.bits)) ∧
  (∀ (s t : State) (a : Word) (w w' : Width) (v : BitVec w.bits) (b : Word),
    s.memWrite a w v = .ok t → b.toNat + w'.bytes ≤ s.cfg.memSize →
    ∃ r, t.memRead b w' = .ok r ∧ ∀ i < w'.bytes, r.extractLsb' (8 * i) 8 =
      if a.toNat ≤ b.toNat + i ∧ b.toNat + i < a.toNat + w.bytes
      then v.extractLsb' (8 * (b.toNat + i - a.toNat)) 8 else s.mem.read (b.toNat + i)) ∧
  (∀ (s : State) (a : Word), a.toNat + 4 ≤ s.cfg.memSize → s.cfg.wf = true →
    ∃ t, s.memWrite a .double 0xDDCCBBAA#32 = .ok t ∧ t.memRead a .word = .ok 0xBBAA#16 ∧
      t.memRead (a + 1#32) .byte = .ok 0xBB#8 ∧ t.memRead (a + 2#32) .word = .ok 0xDDCC#16)

/-- Rules R22 and R23: reading a register at width T gives its low T bytes; writing it at width T replaces them and
keeps bits 31:8T, for every register (i0 among them), and no data instruction changes a bit above 8T. -/
def Obligations.SubWordRegisterAccess : Prop :=
  (∀ (s : State) (k : Reg) (w : Width) (i : Nat), i < w.bits →
    (s.readReg k w).getLsbD i = (s.reg k).getLsbD i) ∧
  (∀ (s : State) (k : Reg) (w : Width) (v : BitVec w.bits) (i : Nat),
    ((s.writeReg k w v).reg k).getLsbD i = if i < w.bits then v.getLsbD i else (s.reg k).getLsbD i) ∧
  (∀ (s : State) (k j : Reg) (w : Width) (v : BitVec w.bits), j ≠ k →
    (s.writeReg k w v).reg j = s.reg j) ∧
  (∀ mk ∈ [Instr.ld, Instr.st, Instr.cmp, Instr.add, Instr.sub, Instr.mul, Instr.div, Instr.mod],
    ∀ (w : Width) (dst : Dst) (src : Src) (s t : State), exec (mk w dst src) s = .next t →
      ∀ (k : Reg) (i : Nat), w.bits ≤ i → (t.reg k).getLsbD i = (s.reg k).getLsbD i)

/-- Rules R97, R98 and R99: the value, the jump target and the interrupt number of every operand form; a target is
the same whatever memory holds. (Decisions D9, D13 and D15 of the spec.) -/
def Obligations.OperandResolution : Prop :=
  ∀ (s : State) (w : Width) (k : Reg) (a v : Word),
    s.value (.reg k) w = .ok ((s.reg k).setWidth w.bits) ∧ s.value (.mem a) w = s.memRead a w ∧
    s.value (.ind k) w = s.memRead (s.reg k) w ∧ s.value (.imm v) w = .ok (v.setWidth w.bits) ∧
    s.target (.imm v) = v ∧ s.target (.mem a) = a ∧ s.target (.reg k) = s.reg k ∧
    s.target (.ind k) = s.reg k ∧ (∀ (m : Memory) (src : Src), (s.setMem m).target src = s.target src) ∧
    (∀ src, s.number src = s.value src .double)

/-! ## Load and store -/

/-- Rule R130: `ld` completes where its operand is readable and its destination exists: the destination then holds
the operand's value, as read before the instruction, at width T, and nothing else changes but ip. -/
def Obligations.LdCopiesItsOperand : Prop :=
  ∀ (w : Width) (dst : Dst) (src : Src) (s : State), s.readable src w → s.reaches (dstLoc dst) w →
    ∃ v t, s.value src w = .ok v ∧ Completes (.ld w dst src) (dstLoc dst) w s t ∧
      t.readLoc (dstLoc dst) w = .ok v

/-- Rule R131: `st` completes where its value is readable and the location its source operand names exists: that
location, computed before the instruction's write, then holds the value, and nothing else changes but ip. -/
def Obligations.StStoresTheValue : Prop :=
  ∀ (w : Width) (dst : Dst) (src : Src) (s : State) (l : Loc), srcLoc s src = some l →
    s.reaches (dstLoc dst) w → s.reaches l w →
    ∃ v t, s.readLoc (dstLoc dst) w = .ok v ∧ Completes (.st w dst src) l w s t ∧ t.readLoc l w = .ok v

/-- Rules R130, R131, R204: the faults of `ld` and `st` in their order, the read before the write check; the term
`st` through an immediate, which no encoding holds, raises rule R89's DecodeError (log entry 7). -/
def Obligations.LdStFaultsInOrder : Prop :=
  (∀ (w : Width) (dst : Dst) (src : Src) (s : State) (a : Word), srcLoc s src = some (.mem a) →
    s.cfg.memSize < a.toNat + w.bytes →
    exec (.ld w dst src) s = .next { s with status := .trapped (.memoryFault s.ip a w .read) }) ∧
  (∀ (w : Width) (src : Src) (s : State) (a : Word), s.readable src w → s.cfg.memSize < a.toNat + w.bytes →
    exec (.ld w (.mem a) src) s = .next { s with status := .trapped (.memoryFault s.ip a w .write) }) ∧
  (∀ (w : Width) (src : Src) (s : State) (a : Word), src.namesLocation = true →
    s.cfg.memSize < a.toNat + w.bytes →
    exec (.st w (.mem a) src) s = .next { s with status := .trapped (.memoryFault s.ip a w .read) }) ∧
  (∀ (w : Width) (dst : Dst) (src : Src) (s : State) (a : Word), s.reaches (dstLoc dst) w →
    srcLoc s src = some (.mem a) → s.cfg.memSize < a.toNat + w.bytes →
    exec (.st w dst src) s = .next { s with status := .trapped (.memoryFault s.ip a w .write) }) ∧
  (∀ (w : Width) (dst : Dst) (v : Word) (s : State),
    exec (.st w dst (.imm v)) s =
      .next { s with status := .trapped (.decodeError s.ip (3 + (encodeDst dst).length) .stag 0x0002#16) })

/-- Rule R132, the non-zeroing law. -/
def Obligations.NonZeroingLaw : Prop :=
  ∀ (w : Width) (rA rB : Reg) (a : Word) (s : State), rB ≠ rA → a.toNat + w.bytes ≤ s.cfg.memSize →
    ∃ t u, exec (.st w (.reg rA) (.mem a)) s = .next t ∧ exec (.ld w (.reg rB) (.mem a)) t = .next u ∧
      (∀ i < w.bits, (u.reg rB).getLsbD i = (s.reg rA).getLsbD i) ∧
      ∀ i, w.bits ≤ i → (u.reg rB).getLsbD i = (s.reg rB).getLsbD i

/-! ## Compare -/

/-- Rules R142, R141, R140: where both operands are readable `cmp` completes with exactly one of bits 2:0 of cf set,
the bit of the relation that holds under SIGNEDNESS's ordering (decision D11), bits 7:3 clear, and nothing else
changed but ip. -/
def Obligations.CmpSetsTheRelationsFlag : Prop :=
  ∀ (w : Width) (dst : Dst) (src : Src) (s : State), s.reaches (dstLoc dst) w → s.readable src w →
    ∃ (a b : BitVec w.bits) (t : State), s.readLoc (dstLoc dst) w = .ok a ∧ s.value src w = .ok b ∧
      exec (.cmp w dst src) s = .next t ∧ WritesNothing s t ∧ t.status = s.status ∧
      t.ip = s.ip + BitVec.ofNat 32 (Instr.cmp w dst src).length ∧
      (t.cf = 4#8 ∨ t.cf = 2#8 ∨ t.cf = 1#8) ∧ (t.cf = 2#8 ↔ a = b) ∧
      (s.cfg.signedness = .unsigned → (t.cf = 4#8 ↔ a.toNat > b.toNat) ∧ (t.cf = 1#8 ↔ a.toNat < b.toNat)) ∧
      (s.cfg.signedness = .signed → (t.cf = 4#8 ↔ a.toInt > b.toInt) ∧ (t.cf = 1#8 ↔ a.toInt < b.toInt))

/-- Rules R140, R155, R204: `cmp` and the arithmetic instructions read the destination first and the source second,
and trap at the first that is out of range, before any zero divisor is noticed. -/
def Obligations.TwoOperandFaultsInOrder : Prop :=
  ∀ mk ∈ [Instr.cmp, Instr.add, Instr.sub, Instr.mul, Instr.div, Instr.mod],
    (∀ (w : Width) (src : Src) (s : State) (a : Word), s.cfg.memSize < a.toNat + w.bytes →
      exec (mk w (.mem a) src) s = .next { s with status := .trapped (.memoryFault s.ip a w .read) }) ∧
    (∀ (w : Width) (dst : Dst) (src : Src) (s : State) (a : Word), s.reaches (dstLoc dst) w →
      srcLoc s src = some (.mem a) → s.cfg.memSize < a.toNat + w.bytes →
      exec (mk w dst src) s = .next { s with status := .trapped (.memoryFault s.ip a w .read) })

/-! ## Arithmetic -/

/-- Rules R150, R151, R152, R155: where both operands are readable `add`, `sub` and `mul` complete with the sum, the
difference dst − src and the product, each modulo 2^(8T), in the destination, and nothing else changed but ip. -/
def Obligations.AddSubMulResults : Prop :=
  ∀ (w : Width) (dst : Dst) (src : Src) (s : State), s.reaches (dstLoc dst) w → s.readable src w →
    ∃ (a b : BitVec w.bits), s.readLoc (dstLoc dst) w = .ok a ∧ s.value src w = .ok b ∧
      (∃ t r, Completes (.add w dst src) (dstLoc dst) w s t ∧ t.readLoc (dstLoc dst) w = .ok r ∧
        r.toNat = (a.toNat + b.toNat) % 2 ^ w.bits) ∧
      (∃ t r, Completes (.sub w dst src) (dstLoc dst) w s t ∧ t.readLoc (dstLoc dst) w = .ok r ∧
        (r.toNat : Int) = ((a.toNat : Int) - b.toNat) % 2 ^ w.bits) ∧
      (∃ t r, Completes (.mul w dst src) (dstLoc dst) w s t ∧ t.readLoc (dstLoc dst) w = .ok r ∧
        r.toNat = a.toNat * b.toNat % 2 ^ w.bits)

/-- Rules R153, R154 under SIGNEDNESS = Unsigned: with a divisor whose low T bytes are not zero `div` and `mod`
complete with the floor of the quotient and the remainder. -/
def Obligations.UnsignedDivModResults : Prop :=
  ∀ (w : Width) (dst : Dst) (src : Src) (s : State) (a b : BitVec w.bits),
    s.cfg.signedness = .unsigned → s.readLoc (dstLoc dst) w = .ok a → s.value src w = .ok b → b ≠ 0 →
    (∃ t q, Completes (.div w dst src) (dstLoc dst) w s t ∧ t.readLoc (dstLoc dst) w = .ok q ∧
      q.toNat = a.toNat / b.toNat) ∧
    (∃ t r, Completes (.mod w dst src) (dstLoc dst) w s t ∧ t.readLoc (dstLoc dst) w = .ok r ∧
      r.toNat = a.toNat % b.toNat)

/-- Rules R153, R154, R156 under SIGNEDNESS = Signed: with a nonzero divisor, MIN ÷ −1 apart, `div` completes with
the quotient truncated toward zero and `mod` with the remainder of the dividend's sign, both exact in the T-width
signed reading. The convention is the spec's own, from general knowledge (93_implementation_defined.md). -/
def Obligations.SignedDivModResults : Prop :=
  ∀ (w : Width) (dst : Dst) (src : Src) (s : State) (a b : BitVec w.bits),
    s.cfg.signedness = .signed → s.readLoc (dstLoc dst) w = .ok a → s.value src w = .ok b → b ≠ 0 →
    ¬ (a.toInt = -(2 ^ (w.bits - 1)) ∧ b.toInt = -1) →
    (∃ t q, Completes (.div w dst src) (dstLoc dst) w s t ∧ t.readLoc (dstLoc dst) w = .ok q ∧
      q.toInt = a.toInt.tdiv b.toInt) ∧
    (∃ t r, Completes (.mod w dst src) (dstLoc dst) w s t ∧ t.readLoc (dstLoc dst) w = .ok r ∧
      r.toInt = a.toInt.tmod b.toInt)

/-- Rules R153, R154, R156: signed MIN ÷ −1 and MIN mod −1 raise ArithmeticError under SIGNED_DIV_OVERFLOW = Fault,
and give MIN and 0 under Wrap. The convention is the spec's own (decision D12). -/
def Obligations.SignedOverflowFollowsItsSetting : Prop :=
  ∀ (w : Width) (dst : Dst) (src : Src) (s : State) (a b : BitVec w.bits),
    s.cfg.signedness = .signed → s.readLoc (dstLoc dst) w = .ok a → s.value src w = .ok b →
    a.toInt = -(2 ^ (w.bits - 1)) → b.toInt = -1 →
    (s.cfg.signedDivOverflow = .fault →
      exec (.div w dst src) s = .next { s with status := .trapped (.arithmeticError s.ip .div) } ∧
      exec (.mod w dst src) s = .next { s with status := .trapped (.arithmeticError s.ip .mod) }) ∧
    (s.cfg.signedDivOverflow = .wrap →
      (∃ t, Completes (.div w dst src) (dstLoc dst) w s t ∧ t.readLoc (dstLoc dst) w = .ok a) ∧
      (∃ t, Completes (.mod w dst src) (dstLoc dst) w s t ∧ t.readLoc (dstLoc dst) w = .ok 0))

/-- Rule R157: `div` and `mod` with a divisor whose low T bytes are zero trap with ArithmeticError and change no
state, for every width, form and readable dividend, whatever the setting of SIGNEDNESS. -/
def Obligations.ZeroDivisorTraps : Prop :=
  ∀ (w : Width) (dst : Dst) (src : Src) (s : State), s.reaches (dstLoc dst) w → s.value src w = .ok 0 →
    exec (.div w dst src) s = .next { s with status := .trapped (.arithmeticError s.ip .div) } ∧
    exec (.mod w dst src) s = .next { s with status := .trapped (.arithmeticError s.ip .mod) }

/-! ## Control transfer -/

/-- Rule R179, the go/no-go table: for each of the eight values of cf[2:0] each jump sets
ip to its target or to NextIp as the table's column says, and changes nothing else. (Decision D13 of the spec.) -/
def Obligations.GoNoGoTable : Prop :=
  ∀ row ∈ [(Instr.jmp, [true, true, true, true, true, true, true, true]),
      (Instr.je, [false, false, true, true, false, false, true, true]),
      (Instr.jne, [true, true, false, false, true, true, false, false]),
      (Instr.jg, [false, false, false, false, true, true, true, true]),
      (Instr.jge, [false, false, true, true, true, true, true, true]),
      (Instr.jl, [false, true, false, true, false, true, false, true]),
      (Instr.jle, [false, true, true, true, false, true, true, true])],
    ∀ (s : State) (src : Src), ∃ taken, row.2[s.cf.toNat % 8]? = some taken ∧
      exec (row.1 src) s = .next { s with
        ip := if taken then s.target src else s.ip + BitVec.ofNat 32 (row.1 src).length }

/-- Rule R27: a Running core's instruction that does not trap advances ip by its length, unless it is a jump, which
sets its target or advances, or an `int` whose dispatcher asked for a jump. -/
def Obligations.IpChangesInItsThreeWays : Prop :=
  ∀ (i : Instr) (s t : State), s.status = .running → exec i s = .next t →
    (∃ tr, t.status = .trapped tr ∧ t.ip = s.ip) ∨
    t.ip = s.ip + BitVec.ofNat 32 i.length ∨
    (∃ src, i ∈ [Instr.jmp src, .je src, .jne src, .jg src, .jge src, .jl src, .jle src] ∧
      t.ip = s.target src) ∨
    (∃ src n a, i = .int src ∧ s.number src = .ok n ∧ s.dispatch n = some a ∧ a.outcome = .jump t.ip)

/-! ## Software interrupt -/

/-- Rules R193, R194, R195, R191: where its number is readable and a handler is registered for it, `int` completes
with the dispatcher's registers, cf and memory; Resume advances ip, a jump request sets or advances it as
INT_JUMP_POLICY says, and Terminate advances it and halts the core, whose next step changes nothing (decision D16).
Three clauses are the model's choices: that a registered handler always answers (log entry 13), and what becomes
of its own fields `answers` and `calls`, the list that holds the answer, or the free value where none is listed, and the
count of calls (log entries 3 and 4). -/
def Obligations.IntFollowsTheOutcome : Prop :=
  ∀ (src : Src) (s : State) (n : Word), s.number src = .ok n → s.hasHandler n = true →
    ∃ a t, s.dispatch n = some a ∧ exec (.int src) s = .next t ∧
      t.regs = (s.hostWrites a.writes).regs ∧ t.cf = (s.hostWrites a.writes).cf ∧
      t.mem = (s.hostWrites a.writes).mem ∧ t.cfg = s.cfg ∧ t.answers = s.answers.tail ∧
      t.calls = s.calls + 1 ∧
      (a.outcome = .resume → t.ip = s.ip + BitVec.ofNat 32 (Instr.int src).length ∧ t.status = s.status) ∧
      (∀ target, a.outcome = .jump target → t.status = s.status ∧
        (s.cfg.intJumpPolicy = .handlerJumpOverrides → t.ip = target) ∧
        (s.cfg.intJumpPolicy = .alwaysAdvance → t.ip = s.ip + BitVec.ofNat 32 (Instr.int src).length)) ∧
      (a.outcome = .terminate → t.ip = s.ip + BitVec.ofNat 32 (Instr.int src).length ∧
        t.status = .halted ∧ step t = .next t)

/-- Rules R191, R200, R204: an unreadable number raises MemoryFault and the dispatcher is not called; a number with
no handler and no default raises UnknownInterrupt; both leave the rest of the state as it was. -/
def Obligations.IntTraps : Prop :=
  (∀ (src : Src) (s : State) (a : Word), srcLoc s src = some (.mem a) → s.cfg.memSize < a.toNat + 4 →
    exec (.int src) s = .next { s with status := .trapped (.memoryFault s.ip a .double .read) }) ∧
  (∀ (src : Src) (s : State) (n : Word), s.number src = .ok n → n ∉ s.cfg.handlers →
    s.cfg.defaultHandler = false →
    exec (.int src) s = .next { s with status := .trapped (.unknownInterrupt s.ip n) })

/-- Rule R192: a dispatcher's writes reach the registers, cf[2:0] and memory, and nothing else. That they leave every
byte at or above MEM_SIZE alone is the model's reading: no such byte exists (log entry 11). -/
def Obligations.DispatcherChangesOnlyItsShare : Prop :=
  ∀ (s : State) (ws : List HostWrite),
    s.hostWrites ws = { s with regs := (s.hostWrites ws).regs, cf := (s.hostWrites ws).cf,
                               mem := (s.hostWrites ws).mem } ∧
    ((s.hostWrites ws).cf = s.cf ∨ (s.hostWrites ws).cf &&& 0xF8#8 = 0#8) ∧
    ∀ c, s.cfg.memSize ≤ c → (s.hostWrites ws).mem.read c = s.mem.read c

/-- Every S' that rule R192 admits is reached by some list of writes, so that an arbitrary list of answers in a
state stands for an arbitrary dispatcher (rule R190; the form of the answers is the model's, log entry 3). -/
def Obligations.EveryDispatcherStateIsReached : Prop :=
  ∀ (s : State) (rf : RegFile) (cf : Byte) (m : Memory), s.Inv → m.wf = true →
    m.below s.cfg.memSize = true →
    ∃ ws, s.hostWrites ws = { s with regs := rf, cf := cf &&& 0x07#8, mem := m }

/-! ## Traps -/

/-- Rules R201 and R108: a step that ends Trapped has changed the status and nothing else. The trap records the ip of
the trapping instruction, which ip keeps (rule R203). -/
def Obligations.TrapsArePrecise : Prop :=
  ∀ (s t : State) (tr : Trap), s.status = .running → step s = .next t → t.status = .trapped tr →
    t = { s with status := .trapped tr } ∧ tr.ip = s.ip

/-- Rule R200's table: which instruction can raise which trap, and with which record. A decoding trap is none of
`exec`'s, since a well-formed instruction has been decoded. -/
def Obligations.TrapKindsOfEachInstruction : Prop :=
  ∀ (i : Instr) (s t : State) (tr : Trap), i.wellFormed = true → s.status = .running →
    exec i s = .next t → t.status = .trapped tr →
    (∃ w dst src, i = .div w dst src ∧ tr = .arithmeticError s.ip .div) ∨
    (∃ w dst src, i = .mod w dst src ∧ tr = .arithmeticError s.ip .mod) ∨
    (∃ src n, i = .int src ∧ s.number src = .ok n ∧ tr = .unknownInterrupt s.ip n) ∨
    (∃ src a, i = .int src ∧ s.cfg.memSize < a.toNat + 4 ∧ tr = .memoryFault s.ip a .double .read) ∨
    (∃ w dst src a, i ∈ [Instr.ld w dst src, .st w dst src, .cmp w dst src, .add w dst src, .sub w dst src,
        .mul w dst src, .div w dst src, .mod w dst src] ∧
      s.cfg.memSize < a.toNat + w.bytes ∧ tr = .memoryFault s.ip a w .read) ∨
    (∃ w dst src a, i ∈ [Instr.ld w dst src, .st w dst src] ∧
      s.cfg.memSize < a.toNat + w.bytes ∧ tr = .memoryFault s.ip a w .write)

/-! ## Frames -/

/-- What each instruction leaves alone whenever it answers a next state, a trap among them. `ld` and the arithmetic
instructions write at most their destination, `st` at most the location its source operand names, `cmp` only cf, the
jumps nothing; ip apart, cf is written by `cmp` alone of these, and their status changes only to Trapped. `int` either
traps, with the status alone changed, or changes registers, cf and memory through its dispatcher's writes and
nothing else but ip, its status going to Halted where the outcome is Terminate and staying otherwise; the answer
taken off the list and the call counted are the model's own fields (log entries 3 and 4). -/
def Obligations.FrameOfEachInstruction : Prop :=
  (∀ mk ∈ [Instr.ld, Instr.add, Instr.sub, Instr.mul, Instr.div, Instr.mod],
    ∀ (w : Width) (dst : Dst) (src : Src) (s t : State), exec (mk w dst src) s = .next t →
      WritesOnly (dstLoc dst) w s t ∧ t.cf = s.cf ∧ (t.status = s.status ∨ ∃ tr, t.status = .trapped tr)) ∧
  (∀ (w : Width) (dst : Dst) (src : Src) (s t : State), exec (.st w dst src) s = .next t →
    (∀ l, srcLoc s src = some l → WritesOnly l w s t) ∧ (srcLoc s src = none → WritesNothing s t) ∧
      t.cf = s.cf ∧ (t.status = s.status ∨ ∃ tr, t.status = .trapped tr)) ∧
  (∀ (w : Width) (dst : Dst) (src : Src) (s t : State), exec (.cmp w dst src) s = .next t →
    WritesNothing s t ∧ (t.status = s.status ∨ ∃ tr, t.status = .trapped tr)) ∧
  (∀ mk ∈ [Instr.jmp, Instr.je, Instr.jne, Instr.jg, Instr.jge, Instr.jl, Instr.jle],
    ∀ (src : Src) (s t : State), exec (mk src) s = .next t →
      WritesNothing s t ∧ t.cf = s.cf ∧ t.status = s.status) ∧
  (∀ (src : Src) (s t : State), exec (.int src) s = .next t →
    (∃ tr, t = { s with status := .trapped tr }) ∨
    (∃ n a, s.number src = .ok n ∧ s.dispatch n = some a ∧
      t = { s.hostWrites a.writes with
        ip := t.ip, status := t.status, answers := s.answers.tail, calls := s.calls + 1 } ∧
      (t.ip = s.ip + BitVec.ofNat 32 (Instr.int src).length ∨ a.outcome = .jump t.ip) ∧
      t.status = if a.outcome = .terminate then .halted else s.status))

/-- Rule R32: cf keeps its value except at a `cmp` or at an `int` whose dispatcher writes it. -/
def Obligations.CfIsStableBetweenCompares : Prop :=
  ∀ (i : Instr) (s t : State), exec i s = .next t → t.cf ≠ s.cf →
    (∃ w dst src, i = .cmp w dst src) ∨
    (∃ src n a v, i = .int src ∧ s.number src = .ok n ∧ s.dispatch n = some a ∧
      HostWrite.cf v ∈ a.writes ∧ t.cf = (s.hostWrites a.writes).cf)

/-- Rule R25: no instruction but `int`, through its dispatcher, writes f0–f9 or reads them: run with other float
registers, it does the same to everything else and leaves them as they are. -/
def Obligations.FloatRegistersAreInert : Prop :=
  ∀ (i : Instr) (s t : State) (f : Vector Word 10), (∀ src, i ≠ .int src) → exec i s = .next t →
    t.regs.f = s.regs.f ∧
    exec i { s with regs := { s.regs with f := f } } = .next { t with regs := { t.regs with f := f } }

/-! ## The whole machine -/

/-- Every step of every state answers a next state: this hardware has no behaviour the model stops on
(rules R36, R104, R201, R237). -/
def Obligations.EveryStepAnswersANextState : Prop :=
  ∀ s : State, ∃ t, step s = .next t

/-- Every step keeps the invariant: memory canonical and inside MEM_SIZE, cf's bits 7:3 zero (R30), a trap record
naming ip (R203), MEM_SIZE in its range (R8). -/
def Obligations.StepKeepsTheInvariant : Prop :=
  ∀ s t : State, s.Inv → step s = .next t → t.Inv

/-- A core that has just been constructed meets the invariant, for every launch whose MEM_SIZE is in its range and
whose memory is canonical and lies inside it; and so does `State.reset`, the launch of log entry 1. -/
def Obligations.ResetMeetsTheInvariant : Prop :=
  State.reset.Inv ∧
  ∀ (cfg : Config) (m : Memory) (as : List DispatchAnswer), cfg.wf = true → m.wf = true →
    m.below cfg.memSize = true → (State.construct cfg m as).Inv

/-- Rules R8, R232: no step changes a parameter, and a step makes at most one dispatcher call, which uses up at most
one of the listed answers. -/
def Obligations.StepKeepsTheParameters : Prop :=
  ∀ s t : State, step s = .next t → t.cfg = s.cfg ∧
    ((t.calls = s.calls ∧ t.answers = s.answers) ∨
      (t.calls = s.calls + 1 ∧ t.answers = s.answers.tail))

/-- Rule R237: a step of a Halted or Trapped core changes nothing, its status and trap record among it. (Decision D24
of the spec.) -/
def Obligations.StoppedCoreIsInert : Prop :=
  ∀ s : State, s.status ≠ .running → step s = .next s

/-! ## Reset and the host -/

/-- Rules R230 and R231: reset() puts the registers at RESET_REGS, ip at ENTRY, cf at 0 and the status at Running,
and leaves memory and the parameters; a step never leaves Halted or Trapped. (Decisions D22 and D24; RESET_REGS and
ENTRY are parameters, held for every value.) That a halt request to a Halted or Trapped core keeps its status is the
model's reading (log entry 6). -/
def Obligations.ResetIsTheOnlyWayOut : Prop :=
  (∀ s : State, s.hostReset = { s with regs := s.cfg.resetRegs, ip := s.cfg.entry, cf := 0#8, status := .running } ∧
    s.hostReset.mem = s.mem ∧ s.hostReset.cfg = s.cfg) ∧
  (∀ s t : State, s.status ≠ .running → step s = .next t → t.status = s.status) ∧
  (∀ s : State, s.status ≠ .running → s.hostHalt.status = s.status)

/-- Rules R38 and R232: a constructed core is in its reset state, with every r, f and i0 at RESET_REGS, ip = ENTRY,
cf = 0 and Running. `State.reset` is a constructed core with nothing listed in memory and the parameters of the test
vectors, so that MEM_SIZE is 0x1000, the registers are zero (RESET_REGS's default) and ip is 0 (log entry 1). -/
def Obligations.ResetValues : Prop :=
  (∀ (cfg : Config) (m : Memory) (as : List DispatchAnswer),
    (State.construct cfg m as).hostReset = State.construct cfg m as ∧
    (State.construct cfg m as).regs = cfg.resetRegs ∧ (State.construct cfg m as).ip = cfg.entry ∧
    (State.construct cfg m as).cf = 0#8 ∧ (State.construct cfg m as).status = .running ∧
    (State.construct cfg m as).mem = m) ∧
  (∃ as, State.reset = State.construct Config.testVectors [] as) ∧
  State.reset.cfg = Config.testVectors ∧ State.reset.cfg.memSize = 0x1000 ∧
  (∀ k, State.reset.reg k = 0#32) ∧ (∀ n : Fin 10, State.reset.regs.f[n.val] = 0#32) ∧
  State.reset.ip = 0#32 ∧ State.reset.cf = 0#8 ∧ State.reset.status = .running ∧ State.reset.mem = []

/-- Rule R209: a halt request on a Running core sets the status to Halted and changes nothing else, and the core
then stays. That a stopped core keeps its status is the model's reading (log entry 6). -/
def Obligations.HaltRequestStopsTheCore : Prop :=
  ∀ s : State, (s.status = .running → s.hostHalt = { s with status := .halted } ∧
    step s.hostHalt = .next s.hostHalt) ∧ (s.status ≠ .running → s.hostHalt = s)

/-- Rules R238 and R237: a run that the host leaves alone is repeated stepping, as far as a bound of k steps that is
the model's (log entry 14): after k steps it has returned their state if that is Halted or Trapped, and is still going
if it is Running. A returned state is not Running, and more steps or requests return the same one. A run that never
returns is one that is still going after every number of steps. -/
def Obligations.RunIsRepeatedStep : Prop :=
  (∀ (k : Nat) (s : State), ∃ t : State, Host.Core.run Sys2Proof.core k s = .next t ∧
    runUntilStopped (List.replicate k false) s = .next (if t.status = .running then .going t else .returned t)) ∧
  (∀ (halts more : List Bool) (s t : State), runUntilStopped halts s = .next (.returned t) →
    t.status ≠ .running ∧ runUntilStopped (halts ++ more) s = .next (.returned t)) ∧
  (∀ s : State, ¬ s.runsForever ↔ ∃ k t, runUntilStopped (List.replicate k false) s = .next (.returned t))

/-- Rule R234: an image that fits is placed byte by byte at LOAD_BASE upward and changes nothing else; one that does
not fit is not loaded. After the boot order of R235 the core is Running at ENTRY with the image in memory. -/
def Obligations.LoaderPlacesTheImage : Prop :=
  (∀ (s : State) (image : List Byte), s.cfg.loadBase + image.length ≤ s.cfg.memSize →
    ∃ t, s.loadImage image = some t ∧ t = { s with mem := t.mem } ∧
      (∀ (k : Nat) (h : k < image.length), t.mem.read (s.cfg.loadBase + k) = image[k]) ∧
      ∀ c, (c < s.cfg.loadBase ∨ s.cfg.loadBase + image.length ≤ c) → t.mem.read c = s.mem.read c) ∧
  (∀ (s : State) (image : List Byte), s.cfg.memSize < s.cfg.loadBase + image.length →
    s.loadImage image = none) ∧
  (∀ (cfg : Config) (rest : Memory) (as : List DispatchAnswer) (image : List Byte) (t : State),
    State.boot cfg rest as image = some t → t.status = .running ∧ t.ip = cfg.entry ∧
      t.regs = cfg.resetRegs ∧ t.cf = 0#8 ∧
      ∀ (k : Nat) (h : k < image.length), t.mem.read (cfg.loadBase + k) = image[k])

/-- Every host command keeps the invariant: reset(), a halt request, the load of an image, and a run under any halt
requests (rules R230, R209, R234, R238; the commands' form is the model's, log entries 6, 14 and 15). -/
def Obligations.HostCommandsKeepTheInvariant : Prop :=
  ∀ s : State, s.Inv → s.hostReset.Inv ∧ s.hostHalt.Inv ∧
    (∀ image t, s.loadImage image = some t → t.Inv) ∧
    ∀ halts t, runUntilStopped halts s = .next (.returned t) ∨ runUntilStopped halts s = .next (.going t) → t.Inv

/-- Rules R209, R238, R240: a halt request that falls before a step of a run that is still going ends the run there,
with the status Halted and nothing else changed; a run that is still going has met no request. The list of requests,
one entry for each point where a step would begin, is the model's (log entry 14). -/
def Obligations.HostHaltEndsTheRun : Prop :=
  (∀ (halts later : List Bool) (s t : State), runUntilStopped halts s = .next (.going t) →
    t.status = .running ∧ true ∉ halts ∧
      runUntilStopped (halts ++ true :: later) s = .next (.returned { t with status := .halted })) ∧
  (∀ (s : State) (later : List Bool), s.status = .running →
    runUntilStopped (true :: later) s = .next (.returned { s with status := .halted }))

/-- Rules R238 and R170: a program need not end. A Running core whose next instruction is a `jmp` to that
instruction's own address runs forever, and the only states such a run may return are that state halted by the host. -/
def Obligations.JumpToItselfRunsForever : Prop :=
  ∀ s : State, s.status = .running → s.ip.toNat + 7 ≤ s.cfg.memSize →
    (∀ (k : Nat) (h : k < (encode (.jmp (.imm s.ip))).length),
      s.mem.read (s.ip.toNat + k) = (encode (.jmp (.imm s.ip)))[k]) →
    s.runsForever ∧ ∀ t, s.runReturns t ↔ t = { s with status := .halted }
end

