-- ==== Sys2Proof/Laws/State.lean ====
section
/-! SUPPORT. What each named update does to each field of State, and to the reads of registers. -/

namespace Sys2Proof.Machine.Laws

variable (s : State) (k : Reg) (v ip : Word) (c : Byte) (st : Status) (m : Memory) (t : Trap) (n : Nat)

@[simp] theorem setReg_ip : (s.setReg k v).ip = s.ip := rfl
@[simp] theorem setReg_cf : (s.setReg k v).cf = s.cf := rfl
@[simp] theorem setReg_status : (s.setReg k v).status = s.status := rfl
@[simp] theorem setReg_mem : (s.setReg k v).mem = s.mem := rfl
@[simp] theorem setReg_cfg : (s.setReg k v).cfg = s.cfg := rfl
@[simp] theorem setReg_answers : (s.setReg k v).answers = s.answers := rfl
@[simp] theorem setReg_calls : (s.setReg k v).calls = s.calls := rfl
@[simp] theorem setReg_regs : (s.setReg k v).regs = s.regs.set k v := rfl

@[simp] theorem setIp_regs : (s.setIp ip).regs = s.regs := rfl
@[simp] theorem setIp_ip : (s.setIp ip).ip = ip := rfl
@[simp] theorem setIp_cf : (s.setIp ip).cf = s.cf := rfl
@[simp] theorem setIp_status : (s.setIp ip).status = s.status := rfl
@[simp] theorem setIp_mem : (s.setIp ip).mem = s.mem := rfl
@[simp] theorem setIp_cfg : (s.setIp ip).cfg = s.cfg := rfl
@[simp] theorem setIp_answers : (s.setIp ip).answers = s.answers := rfl
@[simp] theorem setIp_calls : (s.setIp ip).calls = s.calls := rfl

@[simp] theorem setCf_regs : (s.setCf c).regs = s.regs := rfl
@[simp] theorem setCf_ip : (s.setCf c).ip = s.ip := rfl
@[simp] theorem setCf_cf : (s.setCf c).cf = c &&& 0x07#8 := rfl
@[simp] theorem setCf_status : (s.setCf c).status = s.status := rfl
@[simp] theorem setCf_mem : (s.setCf c).mem = s.mem := rfl
@[simp] theorem setCf_cfg : (s.setCf c).cfg = s.cfg := rfl
@[simp] theorem setCf_answers : (s.setCf c).answers = s.answers := rfl
@[simp] theorem setCf_calls : (s.setCf c).calls = s.calls := rfl

@[simp] theorem setStatus_regs : (s.setStatus st).regs = s.regs := rfl
@[simp] theorem setStatus_ip : (s.setStatus st).ip = s.ip := rfl
@[simp] theorem setStatus_cf : (s.setStatus st).cf = s.cf := rfl
@[simp] theorem setStatus_status : (s.setStatus st).status = st := rfl
@[simp] theorem setStatus_mem : (s.setStatus st).mem = s.mem := rfl
@[simp] theorem setStatus_cfg : (s.setStatus st).cfg = s.cfg := rfl
@[simp] theorem setStatus_answers : (s.setStatus st).answers = s.answers := rfl
@[simp] theorem setStatus_calls : (s.setStatus st).calls = s.calls := rfl

@[simp] theorem setMem_regs : (s.setMem m).regs = s.regs := rfl
@[simp] theorem setMem_ip : (s.setMem m).ip = s.ip := rfl
@[simp] theorem setMem_cf : (s.setMem m).cf = s.cf := rfl
@[simp] theorem setMem_status : (s.setMem m).status = s.status := rfl
@[simp] theorem setMem_mem : (s.setMem m).mem = m := rfl
@[simp] theorem setMem_cfg : (s.setMem m).cfg = s.cfg := rfl
@[simp] theorem setMem_answers : (s.setMem m).answers = s.answers := rfl
@[simp] theorem setMem_calls : (s.setMem m).calls = s.calls := rfl

@[simp] theorem raise_regs : (s.raise t).regs = s.regs := rfl
@[simp] theorem raise_ip : (s.raise t).ip = s.ip := rfl
@[simp] theorem raise_cf : (s.raise t).cf = s.cf := rfl
@[simp] theorem raise_status : (s.raise t).status = .trapped t := rfl
@[simp] theorem raise_mem : (s.raise t).mem = s.mem := rfl
@[simp] theorem raise_cfg : (s.raise t).cfg = s.cfg := rfl
@[simp] theorem raise_answers : (s.raise t).answers = s.answers := rfl
@[simp] theorem raise_calls : (s.raise t).calls = s.calls := rfl

@[simp] theorem advance_regs : (s.advance n).regs = s.regs := rfl
@[simp] theorem advance_ip : (s.advance n).ip = s.ip + BitVec.ofNat 32 n := rfl
@[simp] theorem advance_cf : (s.advance n).cf = s.cf := rfl
@[simp] theorem advance_status : (s.advance n).status = s.status := rfl
@[simp] theorem advance_mem : (s.advance n).mem = s.mem := rfl
@[simp] theorem advance_cfg : (s.advance n).cfg = s.cfg := rfl
@[simp] theorem advance_answers : (s.advance n).answers = s.answers := rfl
@[simp] theorem advance_calls : (s.advance n).calls = s.calls := rfl

@[simp] theorem noteCall_regs : s.noteCall.regs = s.regs := rfl
@[simp] theorem noteCall_ip : s.noteCall.ip = s.ip := rfl
@[simp] theorem noteCall_cf : s.noteCall.cf = s.cf := rfl
@[simp] theorem noteCall_status : s.noteCall.status = s.status := rfl
@[simp] theorem noteCall_mem : s.noteCall.mem = s.mem := rfl
@[simp] theorem noteCall_cfg : s.noteCall.cfg = s.cfg := rfl
@[simp] theorem noteCall_answers : s.noteCall.answers = s.answers.tail := rfl
@[simp] theorem noteCall_calls : s.noteCall.calls = s.calls + 1 := rfl

/-! ## Registers: a read after a write -/

theorem get_set_same (rf : RegFile) : (rf.set k v).get k = v := by
  cases k <;> simp [RegFile.set, RegFile.get]

theorem get_set_other (rf : RegFile) {j : Reg} (h : k ≠ j) : (rf.set k v).get j = rf.get j := by
  cases k <;> cases j <;> simp_all [RegFile.set, RegFile.get]
  rename_i a b
  exact Vector.getElem_set_ne _ _ (fun e => h (Fin.ext e))

@[simp] theorem set_f (rf : RegFile) : (rf.set k v).f = rf.f := by cases k <;> rfl

@[simp] theorem setReg_reg_same : (s.setReg k v).reg k = v := get_set_same k v s.regs

theorem setReg_reg_other {j : Reg} (h : k ≠ j) : (s.setReg k v).reg j = s.reg j :=
  get_set_other k v s.regs h

@[simp] theorem setIp_reg (j : Reg) : (s.setIp ip).reg j = s.reg j := rfl
@[simp] theorem setCf_reg (j : Reg) : (s.setCf c).reg j = s.reg j := rfl
@[simp] theorem setStatus_reg (j : Reg) : (s.setStatus st).reg j = s.reg j := rfl
@[simp] theorem setMem_reg (j : Reg) : (s.setMem m).reg j = s.reg j := rfl
@[simp] theorem raise_reg (j : Reg) : (s.raise t).reg j = s.reg j := rfl
@[simp] theorem advance_reg (j : Reg) : (s.advance n).reg j = s.reg j := rfl
@[simp] theorem noteCall_reg (j : Reg) : s.noteCall.reg j = s.reg j := rfl

end Sys2Proof.Machine.Laws
end

