-- ==== Sys2Proof/Laws/Memory.lean ====
section
/-! SUPPORT. Memory: a read after a write, the canonical form kept, memories with the same bytes equal, and the
byte order of values. -/

namespace Sys2Proof.Machine.Laws

/-! ## One byte -/

theorem read_erase (m : Memory) (a c : Nat) :
    (m.erase a).read c = if c = a then Memory.unlisted else m.read c := by
  induction m with
  | nil => simp [Memory.erase, Memory.read]
  | cons d m ih =>
    simp only [Memory.erase, List.filter_cons] at ih ⊢
    by_cases hd : d.1 = a
    · simp only [hd, bne_self_eq_false, Bool.false_eq_true, ↓reduceIte, ih]
      by_cases hc : c = a
      · simp [hc]
      · simp [hc, Memory.read, hd, Ne.symm hc]
    · simp only [bne_iff_ne, ne_eq, hd, not_false_eq_true, ↓reduceIte, Memory.read, ih]
      by_cases hc : d.1 = c
      · simp [hc, show c ≠ a from fun e => hd (hc.trans e)]
      · simp [hc]

theorem read_cons (c : Host.Cell) (m : Memory) (a : Nat) :
    Memory.read (c :: m) a = if c.1 = a then c.2 else m.read a := rfl

theorem read_insert (m : Memory) (a c : Nat) (v : Byte) :
    (m.insert a v).read c = if c = a then v else m.read c := by
  induction m with
  | nil => simp only [Memory.insert, read_cons, eq_comm]
  | cons d m ih =>
    unfold Memory.insert
    by_cases h1 : a < d.1
    · rw [if_pos h1, read_cons]
      simp only [eq_comm]
    · rw [if_neg h1]
      by_cases h2 : d.1 = a
      · rw [if_pos h2, read_cons, read_cons]
        by_cases hc : a = c
        · rw [if_pos hc, if_pos hc.symm]
        · rw [if_neg hc, if_neg (Ne.symm hc), if_neg (h2 ▸ hc)]
      · rw [if_neg h2, read_cons, read_cons, ih]
        by_cases hc : d.1 = c
        · rw [if_pos hc, if_pos hc, if_neg (hc ▸ h2)]
        · rw [if_neg hc, if_neg hc]

/-- A read after a write: the byte written at its address, the old byte elsewhere. -/
theorem read_write (m : Memory) (a c : Nat) (v : Byte) :
    (m.write a v).read c = if c = a then v else m.read c := by
  unfold Memory.write
  split_ifs with hv hc hc
  · simp [read_erase, hc, hv]
  · simp [read_erase, hc]
  · simp [read_insert, hc]
  · simp [read_insert, hc]

/-! ## The canonical form -/

theorem wf_cons {c : Host.Cell} {m : Memory} :
    Memory.wf (c :: m) = true ↔ c.2 ≠ Memory.unlisted ∧ (∀ d ∈ m, c.1 < d.1) ∧ m.wf = true := by
  simp [Memory.wf, and_assoc]

theorem mem_insert {m : Memory} {a : Nat} {v : Byte} {d : Host.Cell} (h : d ∈ m.insert a v) :
    d = (a, v) ∨ d ∈ m := by
  induction m with
  | nil => simpa [Memory.insert] using h
  | cons c m ih =>
    simp only [Memory.insert] at h
    split_ifs at h with h1 h2
    · simpa using h
    · rcases List.mem_cons.1 h with h | h
      · exact .inl h
      · exact .inr (List.mem_cons_of_mem _ h)
    · rcases List.mem_cons.1 h with h | h
      · exact .inr (h ▸ List.mem_cons_self)
      · exact (ih h).imp id (List.mem_cons_of_mem _)

theorem wf_erase {m : Memory} (a : Nat) (h : m.wf = true) : (m.erase a).wf = true := by
  induction m with
  | nil => rfl
  | cons c m ih =>
    obtain ⟨h1, h2, h3⟩ := wf_cons.1 h
    simp only [Memory.erase, List.filter_cons] at ih ⊢
    split_ifs
    · exact wf_cons.2 ⟨h1, fun d hd => h2 d (List.mem_filter.1 hd).1, ih h3⟩
    · exact ih h3

theorem wf_insert {m : Memory} (a : Nat) {v : Byte} (hv : v ≠ Memory.unlisted) (h : m.wf = true) :
    (m.insert a v).wf = true := by
  induction m with
  | nil => exact wf_cons.2 ⟨hv, by simp, rfl⟩
  | cons c m ih =>
    obtain ⟨h1, h2, h3⟩ := wf_cons.1 h
    simp only [Memory.insert]
    split_ifs with ha hc
    · refine wf_cons.2 ⟨hv, fun d hd => ?_, h⟩
      rcases List.mem_cons.1 hd with rfl | hd
      · exact ha
      · exact ha.trans (h2 d hd)
    · exact wf_cons.2 ⟨hv, fun d hd => hc ▸ h2 d hd, h3⟩
    · refine wf_cons.2 ⟨h1, fun d hd => ?_, ih h3⟩
      rcases mem_insert hd with rfl | hd
      · show c.1 < a
        omega
      · exact h2 d hd

/-- A write keeps the canonical form. -/
theorem wf_write {m : Memory} (a : Nat) (v : Byte) (h : m.wf = true) : (m.write a v).wf = true := by
  unfold Memory.write
  split_ifs with hv
  · exact wf_erase a h
  · exact wf_insert a hv h

/-- A write below `size` keeps memory below `size`. -/
theorem below_write {m : Memory} {a size : Nat} (v : Byte) (ha : a < size) (h : m.below size = true) :
    (m.write a v).below size = true := by
  simp only [Memory.below, List.all_eq_true, decide_eq_true_eq] at h ⊢
  intro d hd
  unfold Memory.write at hd
  split_ifs at hd
  · exact h d (List.mem_filter.1 hd).1
  · rcases mem_insert hd with rfl | hd
    · exact ha
    · exact h d hd

/-- An address below every listed one reads as unlisted. -/
theorem read_of_lt {m : Memory} {a : Nat} (h : ∀ d ∈ m, a < d.1) : m.read a = Memory.unlisted := by
  induction m with
  | nil => rfl
  | cons c m ih =>
    have hc := h c List.mem_cons_self
    rw [Memory.read, if_neg (by omega), ih fun d hd => h d (List.mem_cons_of_mem _ hd)]

theorem read_listed {m : Memory} (h : m.wf = true) {a : Nat} (ha : m.read a ≠ Memory.unlisted) :
    ∃ d ∈ m, d.1 = a := by
  induction m with
  | nil => exact absurd rfl ha
  | cons c m ih =>
    by_cases hc : c.1 = a
    · exact ⟨c, List.mem_cons_self, hc⟩
    · rw [Memory.read, if_neg hc] at ha
      obtain ⟨d, hd, e⟩ := ih (wf_cons.1 h).2.2 ha
      exact ⟨d, List.mem_cons_of_mem _ hd, e⟩

/-- Two memories in canonical form that read alike are equal. -/
theorem wf_ext {m m' : Memory} (h : m.wf = true) (h' : m'.wf = true) (e : ∀ a, m.read a = m'.read a) :
    m = m' := by
  induction m generalizing m' with
  | nil =>
    cases m' with
    | nil => rfl
    | cons c m' =>
      have := e c.1
      simp only [Memory.read, ↓reduceIte] at this
      exact absurd this.symm (wf_cons.1 h').1
  | cons c m ih =>
    obtain ⟨h1, h2, h3⟩ := wf_cons.1 h
    cases m' with
    | nil =>
      have := e c.1
      simp only [Memory.read, ↓reduceIte] at this
      exact absurd this h1
    | cons d m' =>
      obtain ⟨g1, g2, g3⟩ := wf_cons.1 h'
      have hcd : c.1 = d.1 := by
        rcases Nat.lt_trichotomy c.1 d.1 with hlt | heq | hlt
        · have := e c.1
          rw [Memory.read, if_pos rfl, read_of_lt (m := d :: m')] at this
          · exact absurd this h1
          · intro x hx
            rcases List.mem_cons.1 hx with rfl | hx
            · exact hlt
            · exact hlt.trans (g2 x hx)
        · exact heq
        · have := e d.1
          rw [read_cons d, if_pos rfl, read_of_lt (m := c :: m)] at this
          · exact absurd this.symm g1
          · intro x hx
            rcases List.mem_cons.1 hx with rfl | hx
            · exact hlt
            · exact hlt.trans (h2 x hx)
      have hv : c.2 = d.2 := by
        have := e c.1
        simpa [Memory.read, hcd] using this
      have hm : m = m' := ih h3 g3 fun a => by
        by_cases ha : c.1 = a
        · rw [← ha, read_of_lt h2, read_of_lt (hcd ▸ g2)]
        · have := e a
          rwa [Memory.read, if_neg ha, Memory.read, if_neg (hcd ▸ ha)] at this
      rw [hm, Prod.ext hcd hv]

/-! ## Several bytes -/

@[simp] theorem bytes_length (m : Memory) (a n : Nat) : (m.bytes a n).length = n := by
  induction n generalizing a with
  | zero => rfl
  | succ n ih => simp [Memory.bytes, ih]

theorem bytes_getElem (m : Memory) (a n k : Nat) (h : k < (m.bytes a n).length) :
    (m.bytes a n)[k] = m.read (a + k) := by
  induction n generalizing a k with
  | zero => simp [Memory.bytes] at h
  | succ n ih =>
    cases k with
    | zero => simp [Memory.bytes]
    | succ k => simp [Memory.bytes, ih, Nat.add_left_comm, Nat.add_comm]

@[simp] theorem leBytes_length (n v : Nat) : (leBytes n v).length = n := by
  induction n generalizing v with
  | zero => rfl
  | succ n ih => simp [leBytes, ih]

theorem leBytes_getElem (n v k : Nat) (h : k < (leBytes n v).length) :
    (leBytes n v)[k] = BitVec.ofNat 8 (v / 256 ^ k) := by
  induction n generalizing v k with
  | zero => simp [leBytes] at h
  | succ n ih =>
    cases k with
    | zero => simp [leBytes]
    | succ k => simp [leBytes, ih, Nat.div_div_eq_div_mul, Nat.pow_succ, Nat.mul_comm]

theorem leValue_lt (bs : List Byte) : leValue bs < 256 ^ bs.length := by
  induction bs with
  | nil => simp [leValue]
  | cons b bs ih =>
    have := b.isLt
    simp only [leValue, List.length_cons, Nat.pow_succ]
    omega

/-- The low `n` bytes of a value, read back. -/
theorem leValue_leBytes (n v : Nat) : leValue (leBytes n v) = v % 256 ^ n := by
  induction n generalizing v with
  | zero => simp [leBytes, leValue, Nat.mod_one]
  | succ n ih =>
    have e := Nat.mod_mul (x := v) (a := 256) (b := 256 ^ n)
    simp only [leBytes, leValue, ih, BitVec.toNat_ofNat, Nat.pow_succ, Nat.mul_comm (256 ^ n)]
    omega

/-- The bytes of a value, split again. -/
theorem leBytes_leValue (bs : List Byte) : leBytes bs.length (leValue bs) = bs := by
  induction bs with
  | nil => rfl
  | cons b bs ih =>
    have := b.isLt
    have h1 : BitVec.ofNat 8 (b.toNat + 256 * leValue bs) = b := by
      apply BitVec.eq_of_toNat_eq
      simp only [BitVec.toNat_ofNat]
      omega
    have h2 : (b.toNat + 256 * leValue bs) / 256 = leValue bs := by omega
    simp only [List.length_cons, leValue, leBytes, h1, h2, ih]

/-- Byte `k` of a little-endian value. -/
theorem leValue_byte (bs : List Byte) (k : Nat) (h : k < bs.length) :
    BitVec.ofNat 8 (leValue bs / 256 ^ k) = bs[k] := by
  have := leBytes_getElem bs.length (leValue bs) k (by simpa using h)
  rw [← this]
  congr 1
  exact leBytes_leValue bs

theorem read_writeBytes (m : Memory) (a c : Nat) (bs : List Byte) :
    (m.writeBytes a bs).read c =
      if h : a ≤ c ∧ c - a < bs.length then bs[c - a] else m.read c := by
  induction bs generalizing m a with
  | nil => simp [Memory.writeBytes]
  | cons b bs ih =>
    rw [Memory.writeBytes, ih]
    by_cases h1 : a + 1 ≤ c ∧ c - (a + 1) < bs.length
    · have h2 : a ≤ c ∧ c - a < (b :: bs).length := by simp only [List.length_cons]; omega
      rw [dif_pos h1, dif_pos h2]
      have : c - a = c - (a + 1) + 1 := by omega
      simp [this]
    · rw [dif_neg h1, read_write]
      by_cases h3 : c = a
      · subst h3
        simp
      · rw [if_neg h3, dif_neg]
        simp only [List.length_cons]
        omega

theorem wf_writeBytes {m : Memory} (a : Nat) (bs : List Byte) (h : m.wf = true) :
    (m.writeBytes a bs).wf = true := by
  induction bs generalizing m a with
  | nil => exact h
  | cons b bs ih => exact ih (a + 1) (wf_write a b h)

theorem below_writeBytes {m : Memory} {a size : Nat} (bs : List Byte) (ha : a + bs.length ≤ size)
    (h : m.below size = true) : (m.writeBytes a bs).below size = true := by
  induction bs generalizing m a with
  | nil => exact h
  | cons b bs ih =>
    simp only [List.length_cons] at ha
    exact ih (by omega) (below_write b (by omega) h)

/-- Reading back what was written. -/
theorem bytes_writeBytes (m : Memory) (a : Nat) (bs : List Byte) :
    (m.writeBytes a bs).bytes a bs.length = bs := by
  apply List.ext_getElem (by simp)
  intro k h1 h2
  rw [bytes_getElem, read_writeBytes, dif_pos (by omega)]
  simp

end Sys2Proof.Machine.Laws
end

