-- ==== Sys2Proof/Laws/Decode.lean ====
section
/-! SUPPORT. The decoder's parts: each reads what the encoder wrote, accepts nothing else, and on a proper prefix
stops at the first byte that is missing. -/

namespace Sys2Proof.Laws

open Sys2Proof.Machine.Laws

variable {off n : Nat} {bs rest : List Byte}

/-! ## Sequencing -/

theorem rbind_ok {α β : Type} {x : Except Reject α} {f : α → Except Reject β} {b : β} :
    (x >>= f) = .ok b ↔ ∃ a, x = .ok a ∧ f a = .ok b := by
  cases x <;> simp [bind, Except.bind]

@[simp] theorem rok_bind {α β : Type} (a : α) (f : α → Except Reject β) :
    ((.ok a : Except Reject α) >>= f) = f a := rfl

@[simp] theorem rerror_bind {α β : Type} (e : Reject) (f : α → Except Reject β) :
    ((.error e : Except Reject α) >>= f) = .error e := rfl

@[simp] theorem rpure {α : Type} (a : α) : (pure a : Except Reject α) = .ok a := rfl

@[simp] theorem rthrow {α : Type} (e : Reject) : (throw e : Except Reject α) = .error e := rfl

@[simp] theorem takeByte_cons (b : Byte) : takeByte off (b :: bs) = .ok (b, bs) := rfl

@[simp] theorem takeByte_nil : takeByte off [] = .error (.short off) := rfl

theorem takeByte_ok {b : Byte} (h : takeByte off bs = .ok (b, rest)) : bs = b :: rest := by
  cases bs with
  | nil => cases h
  | cons c bs =>
    cases h
    rfl

/-! ## Field codes -/

@[simp] theorem decodeWidth_encodeWidth (w : Width) : decodeWidth (encodeWidth w) = some w := by cases w <;> rfl

theorem decodeWidth_some {b : Byte} {w : Width} (h : decodeWidth b = some w) : b = encodeWidth w := by
  revert b w
  decide +revert

theorem decodeWidth_none {b : Byte} (h : 2 < b.toNat) : decodeWidth b = none := by
  revert b
  decide

@[simp] theorem decodeReg_encodeReg (k : Reg) : decodeReg (encodeReg k) = some k := by
  cases k with
  | r n => revert n; decide
  | i0 => rfl

theorem decodeReg_some {b : Byte} {k : Reg} (h : decodeReg b = some k) : b = encodeReg k := by
  unfold decodeReg at h
  split_ifs at h with h1 h2
  · cases h
    exact (BitVec.ofNat_toNat 8 b).symm.trans (by simp [encodeReg])
  · cases h
    exact BitVec.eq_of_toNat_eq h2

theorem decodeReg_none {b : Byte} (h1 : 10 ≤ b.toNat) (h2 : b.toNat ≠ 0x14) : decodeReg b = none := by
  rw [decodeReg, dif_neg (by omega), if_neg h2]

/-! ## Little-endian fields -/

theorem takeLE_append (n off v : Nat) (rest : List Byte) :
    takeLE n off (leBytes n v ++ rest) = .ok (v % 256 ^ n, rest) := by
  induction n generalizing off v with
  | zero => simp [takeLE, leBytes, Nat.mod_one]
  | succ n ih =>
    have e := Nat.mod_mul (x := v) (a := 256) (b := 256 ^ n)
    simp [takeLE, leBytes, ih, Nat.pow_succ, Nat.mul_comm (256 ^ n), e]

theorem takeLE_ok {v : Nat} (h : takeLE n off bs = .ok (v, rest)) :
    bs = leBytes n v ++ rest ∧ v < 256 ^ n := by
  induction n generalizing off bs v with
  | zero =>
    cases h
    simp [leBytes]
  | succ n ih =>
    obtain ⟨⟨b, cs⟩, hb, h⟩ := rbind_ok.1 h
    obtain ⟨⟨u, ds⟩, hu, h⟩ := rbind_ok.1 h
    cases h
    obtain ⟨rfl, hlt⟩ := ih hu
    have := b.isLt
    have h1 : BitVec.ofNat 8 (b.toNat + 256 * u) = b := by
      apply BitVec.eq_of_toNat_eq
      simp only [BitVec.toNat_ofNat]
      omega
    have h2 : (b.toNat + 256 * u) / 256 = u := by omega
    refine ⟨?_, ?_⟩
    · rw [takeByte_ok hb, leBytes, h1, h2, List.cons_append]
    · rw [Nat.pow_succ]
      omega

/-- Fewer bytes than the field has: decoding stops at the first that is missing. -/
theorem takeLE_short (h : bs.length < n) : takeLE n off bs = .error (.short (off + bs.length)) := by
  induction n generalizing off bs with
  | zero => exact absurd h (Nat.not_lt_zero _)
  | succ n ih =>
    cases bs with
    | nil => rfl
    | cons b bs =>
      simp only [List.length_cons] at h ⊢
      simp [takeLE, ih (off := off + 1) (bs := bs) (by omega), Nat.add_assoc, Nat.add_comm 1]

/-! ## Operands -/

@[simp] theorem takeReg_encode (k : Reg) : takeReg off (encodeReg k :: rest) = .ok (k, rest) := by simp [takeReg]

theorem takeReg_ok {k : Reg} (h : takeReg off bs = .ok (k, rest)) : bs = encodeReg k :: rest := by
  obtain ⟨⟨b, cs⟩, hb, h⟩ := rbind_ok.1 h
  cases hk : decodeReg b with
  | none => simp [hk] at h
  | some j =>
    simp only [hk] at h
    cases h
    rw [takeByte_ok hb, decodeReg_some hk]

theorem ofNat_word_mod (a : Word) : BitVec.ofNat 32 (a.toNat % 4294967296) = a := by
  apply BitVec.eq_of_toNat_eq
  have := a.isLt
  simp only [BitVec.toNat_ofNat]
  omega

/-- A destination is read back from its encoding. -/
@[simp] theorem takeDst_encode (dst : Dst) : takeDst off (encodeDst dst ++ rest) = .ok (dst, rest) := by
  cases dst with
  | reg k => simp [takeDst, encodeDst, Role.tagLegal]
  | mem a => simp [takeDst, encodeDst, Role.tagLegal, takeLE_append, ofNat_word_mod]

/-- A source whose immediate fits in `n` bytes is read back from its encoding. -/
theorem takeOperand_encode {role : Role} (hr : role ≠ .dest) {src : Src}
    (hf : src.fits (8 * n) = true) (hs : role = .stSource → src.namesLocation = true) :
    takeOperand role n off (encodeSrc n src ++ rest) = .ok (src, rest) := by
  cases role with
  | dest => exact absurd rfl hr
  | source =>
    cases src with
    | reg k => simp [takeOperand, encodeSrc, Role.tagLegal]
    | ind k => simp [takeOperand, encodeSrc, Role.tagLegal]
    | mem a => simp [takeOperand, encodeSrc, Role.tagLegal, takeLE_append, ofNat_word_mod]
    | imm v =>
      have hv : v.toNat % 256 ^ n = v.toNat := by
        rw [Src.fits, decide_eq_true_eq, Nat.pow_mul] at hf
        exact Nat.mod_eq_of_lt hf
      simp [takeOperand, encodeSrc, Role.tagLegal, takeLE_append, hv]
  | stSource =>
    cases src with
    | reg k => simp [takeOperand, encodeSrc, Role.tagLegal]
    | ind k => simp [takeOperand, encodeSrc, Role.tagLegal]
    | mem a => simp [takeOperand, encodeSrc, Role.tagLegal, takeLE_append, ofNat_word_mod]
    | imm v => simp [Src.namesLocation] at hs

theorem toNat_ofNat_word {v m : Nat} (hm : m ≤ 4) (h : v < 256 ^ m) : (BitVec.ofNat 32 v).toNat = v := by
  have : (256 : Nat) ^ m ≤ 256 ^ 4 := Nat.pow_le_pow_right (by decide) hm
  rw [BitVec.toNat_ofNat]
  exact Nat.mod_eq_of_lt (by omega)

/-- What a destination's decoding accepts is its encoding. -/
theorem takeDst_ok {dst : Dst} (h : takeDst off bs = .ok (dst, rest)) : bs = encodeDst dst ++ rest := by
  obtain ⟨⟨tag, cs⟩, hb, h⟩ := rbind_ok.1 h
  have hbs := takeByte_ok hb
  simp only at h
  split_ifs at h with hl
  · have hl' : tag.toNat ≤ 1 := by simpa [Role.tagLegal] using hl
    split at h
    · rename_i h0
      obtain ⟨⟨k, ds⟩, hk, h⟩ := rbind_ok.1 h
      cases h
      rw [hbs, takeReg_ok hk, show tag = 0x00#8 from BitVec.eq_of_toNat_eq h0]
      rfl
    · rename_i h0
      obtain ⟨⟨a, ds⟩, ha, h⟩ := rbind_ok.1 h
      cases h
      obtain ⟨rfl, hlt⟩ := takeLE_ok ha
      have ht : tag.toNat = 1 := by
        have : tag.toNat ≠ 0 := h0
        omega
      rw [hbs, show tag = 0x01#8 from BitVec.eq_of_toNat_eq ht, encodeDst, toNat_ofNat_word (le_refl 4) hlt]
      rfl

/-- What a source's decoding accepts is its encoding, and its immediate fits. -/
theorem takeOperand_ok {role : Role} (hr : role ≠ .dest) (hn : n ≤ 4) {src : Src}
    (h : takeOperand role n off bs = .ok (src, rest)) :
    bs = encodeSrc n src ++ rest ∧ src.fits (8 * n) = true ∧
      (role = .stSource → src.namesLocation = true) := by
  obtain ⟨⟨tag, cs⟩, hb, h⟩ := rbind_ok.1 h
  have hbs := takeByte_ok hb
  simp only at h
  split_ifs at h with hl
  · split at h
    · rename_i h0
      obtain ⟨⟨k, ds⟩, hk, h⟩ := rbind_ok.1 h
      cases h
      rw [hbs, takeReg_ok hk, show tag = 0x00#8 from BitVec.eq_of_toNat_eq h0]
      exact ⟨rfl, rfl, fun _ => rfl⟩
    · rename_i h0
      obtain ⟨⟨a, ds⟩, ha, h⟩ := rbind_ok.1 h
      cases h
      obtain ⟨rfl, hlt⟩ := takeLE_ok ha
      rw [hbs, show tag = 0x01#8 from BitVec.eq_of_toNat_eq h0]
      refine ⟨?_, rfl, fun _ => rfl⟩
      rw [encodeSrc, toNat_ofNat_word (le_refl 4) hlt]
      rfl
    · rename_i h0
      obtain ⟨⟨v, ds⟩, hv, h⟩ := rbind_ok.1 h
      cases h
      obtain ⟨rfl, hlt⟩ := takeLE_ok hv
      rw [hbs, show tag = 0x02#8 from BitVec.eq_of_toNat_eq h0]
      refine ⟨?_, ?_, fun e => ?_⟩
      · rw [encodeSrc, toNat_ofNat_word hn hlt]
        rfl
      · rw [Src.fits, decide_eq_true_eq, toNat_ofNat_word hn hlt, Nat.pow_mul]
        exact hlt
      · subst e
        simp [Role.tagLegal, h0] at hl
    · rename_i h0 h1 h2
      obtain ⟨⟨k, ds⟩, hk, h⟩ := rbind_ok.1 h
      cases h
      have ht : tag.toNat = 3 := by
        have g0 : tag.toNat ≠ 0 := h0
        have g1 : tag.toNat ≠ 1 := h1
        have g2 : tag.toNat ≠ 2 := h2
        have g3 : tag.toNat ≤ 3 := by
          cases role with
          | dest => exact absurd rfl hr
          | source => simpa [Role.tagLegal] using hl
          | stSource =>
            simp only [Role.tagLegal, Bool.and_eq_true, decide_eq_true_eq] at hl
            exact hl.1
        omega
      rw [hbs, takeReg_ok hk, show tag = 0x03#8 from BitVec.eq_of_toNat_eq ht]
      exact ⟨rfl, rfl, fun _ => rfl⟩

/-! ## Lengths -/

@[simp] theorem encodeDst_length (dst : Dst) : (encodeDst dst).length = 1 + dst.size := by
  cases dst <;> simp [encodeDst, Dst.size]

@[simp] theorem encodeSrc_length (n : Nat) (src : Src) : (encodeSrc n src).length = 1 + src.size n := by
  cases src <;> simp [encodeSrc, Src.size, Nat.add_comm]

@[simp] theorem encodeData_length (op : Nat) (w : Width) (dst : Dst) (src : Src) :
    (encodeData op w dst src).length = 5 + dst.size + src.size w.bytes := by
  simp [encodeData]
  omega

@[simp] theorem encodeControl_length (op : Nat) (src : Src) :
    (encodeControl op src).length = 3 + src.size 4 := by
  simp [encodeControl]
  omega

/-! ## Prefixes -/

/-- A destination cut short: decoding stops at the first byte that is missing. -/
theorem takeDst_short (dst : Dst) {k : Nat} (hk : k < (encodeDst dst).length) :
    takeDst off ((encodeDst dst).take k) = .error (.short (off + k)) := by
  cases k with
  | zero => rfl
  | succ k =>
    cases dst with
    | reg r =>
      have : k = 0 := by
        simp [Dst.size] at hk
        omega
      subst this
      simp [encodeDst, takeDst, Role.tagLegal, takeReg]
    | mem a =>
      simp only [encodeDst_length, Dst.size] at hk
      have hl : ((leBytes 4 a.toNat).take k).length < 4 := by
        rw [List.length_take, leBytes_length]
        omega
      have hm : min k 4 = k := by omega
      simp [encodeDst, takeDst, Role.tagLegal, takeLE_short hl, hm]
      omega

/-- A source cut short: decoding stops at the first byte that is missing. -/
theorem takeOperand_short {role : Role} (hr : role ≠ .dest) {src : Src}
    (hs : role = .stSource → src.namesLocation = true) {k : Nat} (hk : k < (encodeSrc n src).length) :
    takeOperand role n off ((encodeSrc n src).take k) = .error (.short (off + k)) := by
  cases k with
  | zero => rfl
  | succ k =>
    have reg : ∀ (tag : Byte), (tag.toNat = 0 ∨ tag.toNat = 3) →
        takeOperand role n off [tag] = .error (.short (off + 1)) := by
      intro tag ht
      have hl : role.tagLegal tag = true := by
        cases role with
        | dest => exact absurd rfl hr
        | source => rcases ht with ht | ht <;> simp [Role.tagLegal, ht]
        | stSource => rcases ht with ht | ht <;> simp [Role.tagLegal, ht]
      rcases ht with ht | ht <;> simp [takeOperand, hl, ht, takeReg]
    cases src with
    | reg r =>
      have : k = 0 := by
        simp [Src.size] at hk
        omega
      subst this
      exact reg 0x00#8 (.inl rfl)
    | ind r =>
      have : k = 0 := by
        simp [Src.size] at hk
        omega
      subst this
      exact reg 0x03#8 (.inr rfl)
    | mem a =>
      simp only [encodeSrc_length, Src.size] at hk
      have hl : ((leBytes 4 a.toNat).take k).length < 4 := by
        rw [List.length_take, leBytes_length]
        omega
      have hm : min k 4 = k := by omega
      have ht : role.tagLegal 0x01#8 = true := by
        cases role with
        | dest => exact absurd rfl hr
        | source => rfl
        | stSource => rfl
      simp [encodeSrc, takeOperand, ht, takeLE_short hl, hm]
      omega
    | imm v =>
      simp only [encodeSrc_length, Src.size] at hk
      have hl : ((leBytes n v.toNat).take k).length < n := by
        rw [List.length_take, leBytes_length]
        omega
      have hm : min k n = k := by omega
      have ht : role.tagLegal 0x02#8 = true := by
        cases role with
        | dest => exact absurd rfl hr
        | source => rfl
        | stSource => exact absurd (hs rfl) (by simp [Src.namesLocation])
      simp [encodeSrc, takeOperand, ht, takeLE_short hl, hm]
      omega

end Sys2Proof.Laws
end

