-- ==== Sys2Proof/Laws/Operands.lean ====
section
/-! SUPPORT. One lemma for everything each operand operation can do. -/

namespace Sys2Proof.Machine.Laws

variable {s t : State} {a : Word} {w : Width} {l : Loc} {k : Reg}

theorem bits_eq (w : Width) : w.bits = 8 * w.bytes := rfl

theorem bytes_le (w : Width) : w.bytes ≤ 4 := by cases w <;> decide

theorem pow_bytes (w : Width) : 256 ^ w.bytes = 2 ^ w.bits := by cases w <;> rfl

@[simp] theorem valid_iff : s.valid a w = true ↔ a.toNat + w.bytes ≤ s.cfg.memSize := by simp [State.valid]

/-! ## Memory -/

theorem memRead_valid (h : a.toNat + w.bytes ≤ s.cfg.memSize) :
    s.memRead a w = .ok (BitVec.ofNat w.bits (leValue (s.mem.bytes a.toNat w.bytes))) :=
  if_pos (valid_iff.2 h)

theorem memRead_invalid (h : s.cfg.memSize < a.toNat + w.bytes) :
    s.memRead a w = .error (.memoryFault s.ip a w .read) :=
  if_neg fun e => absurd (valid_iff.1 e) (by omega)

/-- A read answers a value exactly when the access is valid. -/
theorem memRead_ok {v : BitVec w.bits} (h : s.memRead a w = .ok v) :
    a.toNat + w.bytes ≤ s.cfg.memSize ∧ v.toNat = leValue (s.mem.bytes a.toNat w.bytes) := by
  by_cases hv : a.toNat + w.bytes ≤ s.cfg.memSize
  · rw [memRead_valid hv] at h
    have lt := leValue_lt (s.mem.bytes a.toNat w.bytes)
    rw [bytes_length, pow_bytes] at lt
    rw [← Except.ok.inj h, BitVec.toNat_ofNat, Nat.mod_eq_of_lt lt]
    exact ⟨hv, rfl⟩
  · rw [memRead_invalid (by omega)] at h
    cases h

theorem memRead_error {e : Trap} (h : s.memRead a w = .error e) :
    s.cfg.memSize < a.toNat + w.bytes ∧ e = .memoryFault s.ip a w .read := by
  by_cases hv : a.toNat + w.bytes ≤ s.cfg.memSize
  · rw [memRead_valid hv] at h
    cases h
  · rw [memRead_invalid (by omega)] at h
    exact ⟨by omega, (Except.error.inj h).symm⟩

theorem extract_byte {n : Nat} (v : BitVec n) (i : Nat) :
    v.extractLsb' (8 * i) 8 = BitVec.ofNat 8 (v.toNat / 256 ^ i) := by
  apply BitVec.eq_of_toNat_eq
  simp only [BitVec.extractLsb'_toNat, BitVec.toNat_ofNat, Nat.shiftRight_eq_div_pow, Nat.pow_mul]

/-- Byte `i` of the value read is the byte at `a + i`. -/
theorem memRead_byte {v : BitVec w.bits} (h : s.memRead a w = .ok v) {i : Nat} (hi : i < w.bytes) :
    v.extractLsb' (8 * i) 8 = s.mem.read (a.toNat + i) := by
  rw [extract_byte, (memRead_ok h).2, leValue_byte _ _ (by simpa using hi), bytes_getElem]

theorem memWrite_valid (v : BitVec w.bits) (h : a.toNat + w.bytes ≤ s.cfg.memSize) :
    s.memWrite a w v = .ok (s.setMem (s.mem.writeBytes a.toNat (leBytes w.bytes v.toNat))) :=
  if_pos (valid_iff.2 h)

theorem memWrite_invalid (v : BitVec w.bits) (h : s.cfg.memSize < a.toNat + w.bytes) :
    s.memWrite a w v = .error (.memoryFault s.ip a w .write) :=
  if_neg fun e => absurd (valid_iff.1 e) (by omega)

/-- Everything a write that succeeds does. -/
theorem memWrite_ok {v : BitVec w.bits} (h : s.memWrite a w v = .ok t) :
    a.toNat + w.bytes ≤ s.cfg.memSize ∧
      t = s.setMem (s.mem.writeBytes a.toNat (leBytes w.bytes v.toNat)) := by
  by_cases hv : a.toNat + w.bytes ≤ s.cfg.memSize
  · rw [memWrite_valid v hv] at h
    exact ⟨hv, (Except.ok.inj h).symm⟩
  · rw [memWrite_invalid v (by omega)] at h
    cases h

theorem memWrite_error {v : BitVec w.bits} {e : Trap} (h : s.memWrite a w v = .error e) :
    s.cfg.memSize < a.toNat + w.bytes ∧ e = .memoryFault s.ip a w .write := by
  by_cases hv : a.toNat + w.bytes ≤ s.cfg.memSize
  · rw [memWrite_valid v hv] at h
    cases h
  · rw [memWrite_invalid v (by omega)] at h
    exact ⟨by omega, (Except.error.inj h).symm⟩

/-- The byte at `c` after a write of T bytes at `a`. -/
theorem read_memWrite {v : BitVec w.bits} (h : s.memWrite a w v = .ok t) (c : Nat) :
    t.mem.read c =
      if a.toNat ≤ c ∧ c < a.toNat + w.bytes then v.extractLsb' (8 * (c - a.toNat)) 8 else s.mem.read c := by
  obtain ⟨-, rfl⟩ := memWrite_ok h
  rw [setMem_mem, read_writeBytes]
  by_cases hc : a.toNat ≤ c ∧ c < a.toNat + w.bytes
  · rw [if_pos hc, dif_pos ⟨hc.1, by rw [leBytes_length]; omega⟩, leBytes_getElem, extract_byte]
  · rw [if_neg hc, dif_neg]
    rw [leBytes_length]
    omega

theorem memRead_memWrite {v : BitVec w.bits} (h : s.memWrite a w v = .ok t) : t.memRead a w = .ok v := by
  obtain ⟨hv, rfl⟩ := memWrite_ok h
  rw [memRead_valid (by simpa using hv), setMem_mem]
  have := bytes_writeBytes s.mem a.toNat (leBytes w.bytes v.toNat)
  rw [leBytes_length] at this
  rw [this, leValue_leBytes, pow_bytes, Nat.mod_eq_of_lt v.isLt, BitVec.ofNat_toNat, BitVec.setWidth_eq]

/-! ## Registers at width T -/

theorem mask_bit (w : Width) (i : Nat) (hi : i < 32) : (Width.mask w).getLsbD i = decide (i < w.bits) := by
  cases w <;> revert i <;> decide

/-- The masked write, bit by bit (rule R23). -/
theorem maskedWrite_bit (w : Width) (old : Word) (v : BitVec w.bits) (i : Nat) :
    (maskedWrite w old v).getLsbD i = if i < w.bits then v.getLsbD i else old.getLsbD i := by
  by_cases hi : i < 32
  · simp only [maskedWrite, BitVec.getLsbD_or, BitVec.getLsbD_and, BitVec.getLsbD_not, mask_bit w i hi,
      BitVec.getLsbD_setWidth, hi, decide_true, Bool.true_and]
    by_cases h : i < w.bits <;> simp [h]
  · have hb : ¬ i < w.bits := by
      have := bytes_le w
      rw [bits_eq]
      omega
    rw [if_neg hb, BitVec.getLsbD_of_ge _ _ (by omega), BitVec.getLsbD_of_ge _ _ (by omega)]

@[simp] theorem readReg_writeReg (v : BitVec w.bits) : (s.writeReg k w v).readReg k w = v := by
  apply BitVec.eq_of_getLsbD_eq
  intro i hi
  simp [State.readReg, State.writeReg, hi, maskedWrite_bit]

/-! ## Locations -/

theorem readLoc_ok_iff : (∃ v, s.readLoc l w = .ok v) ↔ ∀ a, l = .mem a → a.toNat + w.bytes ≤ s.cfg.memSize := by
  cases l with
  | reg k => simp [State.readLoc]
  | mem a =>
    refine ⟨fun ⟨v, h⟩ b hb => ?_, fun h => ⟨_, memRead_valid (h a rfl)⟩⟩
    cases hb
    exact (memRead_ok h).1

/-- A failing read of a location is a MemoryFault at its address (rule R95). -/
theorem readLoc_error {e : Trap} (h : s.readLoc l w = .error e) :
    ∃ a, l = .mem a ∧ s.cfg.memSize < a.toNat + w.bytes ∧ e = .memoryFault s.ip a w .read := by
  cases l with
  | reg k => cases h
  | mem a => exact ⟨a, rfl, memRead_error h⟩

theorem writeLoc_error {v : BitVec w.bits} {e : Trap} (h : s.writeLoc l w v = .error e) :
    ∃ a, l = .mem a ∧ s.cfg.memSize < a.toNat + w.bytes ∧ e = .memoryFault s.ip a w .write := by
  cases l with
  | reg k => cases h
  | mem a => exact ⟨a, rfl, memWrite_error h⟩

/-- A location in range can be written. -/
theorem writeLoc_exists (v : BitVec w.bits) (h : ∀ a, l = .mem a → a.toNat + w.bytes ≤ s.cfg.memSize) :
    ∃ t, s.writeLoc l w v = .ok t := by
  cases l with
  | reg k => exact ⟨_, rfl⟩
  | mem a => exact ⟨_, memWrite_valid v (h a rfl)⟩

/-- What was written is read back. -/
theorem readLoc_writeLoc {v : BitVec w.bits} (h : s.writeLoc l w v = .ok t) : t.readLoc l w = .ok v := by
  cases l with
  | reg k =>
    cases h
    simp [State.readLoc]
  | mem a => exact memRead_memWrite h

/-- Everything a write of a location does: the location itself apart, nothing. -/
theorem writeLoc_only {v : BitVec w.bits} (h : s.writeLoc l w v = .ok t) :
    WritesOnly l w s t ∧ t.ip = s.ip ∧ t.cf = s.cf ∧ t.status = s.status := by
  cases l with
  | reg k =>
    cases h
    refine ⟨⟨fun j hj => setReg_reg_other _ _ _ fun e => hj (e ▸ rfl), fun j i hi => ?_, by simp [State.writeReg],
      fun a _ => rfl, ⟨rfl, rfl, rfl⟩⟩, rfl, rfl, rfl⟩
    by_cases hj : k = j
    · subst hj
      rw [State.writeReg, setReg_reg_same, maskedWrite_bit, if_neg (by omega)]
    · rw [State.writeReg, setReg_reg_other _ _ _ hj]
  | mem a =>
    have hr := fun c => read_memWrite h c
    obtain ⟨-, rfl⟩ := memWrite_ok h
    refine ⟨⟨fun _ _ => rfl, fun _ _ _ => rfl, rfl, fun c hc => ?_, ⟨rfl, rfl, rfl⟩⟩, rfl, rfl, rfl⟩
    exact (hr c).trans (if_neg hc)

/-- A write of a location keeps the memory's canonical form and bounds. -/
theorem writeLoc_mem {v : BitVec w.bits} (h : s.writeLoc l w v = .ok t) (hw : s.mem.wf = true)
    (hb : s.mem.below s.cfg.memSize = true) : t.mem.wf = true ∧ t.mem.below s.cfg.memSize = true := by
  cases l with
  | reg k =>
    cases h
    exact ⟨hw, hb⟩
  | mem a =>
    obtain ⟨hv, rfl⟩ := memWrite_ok h
    exact ⟨wf_writeBytes _ _ hw, below_writeBytes _ (by rw [leBytes_length]; exact hv) hb⟩

/-! ## Source operands -/

/-- The operand's location, if it is a pointer or a register, is where its value is read. -/
theorem value_eq_readLoc {src : Src} (h : srcLoc s src = some l) : s.value src w = s.readLoc l w := by
  cases src <;> cases h <;> rfl

/-- A failing operand read is a MemoryFault at the pointer's address (rule R97). -/
theorem value_error {src : Src} {e : Trap} (h : s.value src w = .error e) :
    ∃ a, srcLoc s src = some (.mem a) ∧ s.cfg.memSize < a.toNat + w.bytes ∧
      e = .memoryFault s.ip a w .read := by
  cases src with
  | reg k => cases h
  | imm v => cases h
  | mem a => exact ⟨a, rfl, memRead_error h⟩
  | ind k => exact ⟨s.reg k, rfl, memRead_error h⟩

/-- An operand whose pointer, if it is one, is in range has a value. -/
theorem value_exists {src : Src} (h : ∀ a, srcLoc s src = some (.mem a) → a.toNat + w.bytes ≤ s.cfg.memSize) :
    ∃ v, s.value src w = .ok v := by
  cases hv : s.value src w with
  | ok v => exact ⟨v, rfl⟩
  | error e =>
    obtain ⟨a, ha, hlt, -⟩ := value_error hv
    have := h a ha
    omega

end Sys2Proof.Machine.Laws
end

