-- ==== Sys2Proof/Laws/Exec.lean ====
section
/-! SUPPORT. What each meaning can do, said once: the inversions that statements about instructions cite. -/

namespace Sys2Proof.Machine.Laws

variable {s t : State} {w : Width} {dst : Dst} {src : Src}

/-! ## Ending an instruction -/

@[simp] theorem complete_ok (s t : State) : complete s (.ok t) = .next t := rfl

@[simp] theorem complete_error (s : State) (e : Trap) : complete s (.error e) = .next (s.raise e) := rfl

theorem complete_next {r : Except Trap State} (h : complete s r = .next t) :
    r = .ok t ∨ ∃ e, r = .error e ∧ t = s.raise e := by
  cases r with
  | ok u =>
    cases h
    exact .inl rfl
  | error e =>
    cases h
    exact .inr ⟨e, rfl, rfl⟩

/-- An instruction always ends in a next state. -/
theorem complete_exists (s : State) (r : Except Trap State) : ∃ t, complete s r = .next t := by
  cases r <;> exact ⟨_, rfl⟩

theorem bind_ok {α β : Type} {x : Except Trap α} {f : α → Except Trap β} {b : β} :
    (x >>= f) = .ok b ↔ ∃ a, x = .ok a ∧ f a = .ok b := by
  cases x <;> simp [bind, Except.bind]

theorem bind_error {α β : Type} {x : Except Trap α} {f : α → Except Trap β} {e : Trap} :
    (x >>= f) = .error e ↔ x = .error e ∨ ∃ a, x = .ok a ∧ f a = .error e := by
  cases x <;> simp [bind, Except.bind]

@[simp] theorem ok_bind {α β : Type} (a : α) (f : α → Except Trap β) : ((.ok a : Except Trap α) >>= f) = f a := rfl

@[simp] theorem error_bind {α β : Type} (e : Trap) (f : α → Except Trap β) :
    ((.error e : Except Trap α) >>= f) = .error e := rfl

@[simp] theorem pure_eq_ok {α : Type} (a : α) : (pure a : Except Trap α) = .ok a := rfl

@[simp] theorem throw_eq_error {α : Type} (e : Trap) : (throw e : Except Trap α) = .error e := rfl

/-! ## The data instructions -/

/-- `ld` moves its operand, or raises the first fault of its source read and destination check. -/
theorem execLd_cases (h : execLd w dst src s = .next t) :
    (∃ v u, s.value src w = .ok v ∧ s.writeLoc (dstLoc dst) w v = .ok u ∧
      t = u.advance (Instr.ld w dst src).length) ∨
    (∃ e, s.value src w = .error e ∧ t = s.raise e) ∨
    (∃ v e, s.value src w = .ok v ∧ s.writeLoc (dstLoc dst) w v = .error e ∧ t = s.raise e) := by
  rcases complete_next h with h | ⟨e, he, rfl⟩
  · obtain ⟨v, hv, h⟩ := bind_ok.1 h
    obtain ⟨u, hu, h⟩ := bind_ok.1 h
    exact .inl ⟨v, u, hv, hu, (Except.ok.inj h).symm⟩
  · rcases bind_error.1 he with h | ⟨v, hv, h⟩
    · exact .inr (.inl ⟨e, h, rfl⟩)
    · rcases bind_error.1 h with h | ⟨u, hu, h⟩
      · exact .inr (.inr ⟨v, e, hv, h, rfl⟩)
      · cases h

/-- `st` through an operand that names a location: the value read, then the location written. -/
theorem execSt_eq {l : Loc} (hl : srcLoc s src = some l) :
    execSt w dst src s = complete s (do
      let v ← s.readLoc (dstLoc dst) w
      let u ← s.writeLoc l w v
      return u.advance (Instr.st w dst src).length) := by
  simp [execSt, hl]

/-- `st` through an immediate, which no encoding holds (rule R89). -/
theorem execSt_imm (v : Word) :
    execSt w dst (.imm v) s = .next (s.raise (.decodeError s.ip (4 + dst.size) .stag 0x0002#16)) := rfl

/-- `st` stores the destination field's value, or raises the first fault of its read and its check. -/
theorem execSt_cases {l : Loc} (hl : srcLoc s src = some l) (h : execSt w dst src s = .next t) :
    (∃ v u, s.readLoc (dstLoc dst) w = .ok v ∧ s.writeLoc l w v = .ok u ∧
      t = u.advance (Instr.st w dst src).length) ∨
    (∃ e, s.readLoc (dstLoc dst) w = .error e ∧ t = s.raise e) ∨
    (∃ v e, s.readLoc (dstLoc dst) w = .ok v ∧ s.writeLoc l w v = .error e ∧ t = s.raise e) := by
  rw [execSt_eq hl] at h
  rcases complete_next h with h | ⟨e, he, rfl⟩
  · obtain ⟨v, hv, h⟩ := bind_ok.1 h
    obtain ⟨u, hu, h⟩ := bind_ok.1 h
    exact .inl ⟨v, u, hv, hu, (Except.ok.inj h).symm⟩
  · rcases bind_error.1 he with h | ⟨v, hv, h⟩
    · exact .inr (.inl ⟨e, h, rfl⟩)
    · rcases bind_error.1 h with h | ⟨u, hu, h⟩
      · exact .inr (.inr ⟨v, e, hv, h, rfl⟩)
      · cases h

/-- `cmp` writes cf and advances, or raises the first fault of its two reads. -/
theorem execCmp_cases (h : execCmp w dst src s = .next t) :
    (∃ a b, s.readLoc (dstLoc dst) w = .ok a ∧ s.value src w = .ok b ∧
      t = (s.setCf (compareFlags (reading s.cfg.signedness a) (reading s.cfg.signedness b))).advance
        (Instr.cmp w dst src).length) ∨
    (∃ e, s.readLoc (dstLoc dst) w = .error e ∧ t = s.raise e) ∨
    (∃ a e, s.readLoc (dstLoc dst) w = .ok a ∧ s.value src w = .error e ∧ t = s.raise e) := by
  rcases complete_next h with h | ⟨e, he, rfl⟩
  · obtain ⟨a, ha, h⟩ := bind_ok.1 h
    obtain ⟨b, hb, h⟩ := bind_ok.1 h
    exact .inl ⟨a, b, ha, hb, (Except.ok.inj h).symm⟩
  · rcases bind_error.1 he with h | ⟨a, ha, h⟩
    · exact .inr (.inl ⟨e, h, rfl⟩)
    · rcases bind_error.1 h with h | ⟨b, hb, h⟩
      · exact .inr (.inr ⟨a, e, ha, h, rfl⟩)
      · cases h

/-- The arithmetic family (rule R155): the result written, or the first trap of the dst read, the src read and
the operation. The write never faults: the read checked the same bytes. -/
theorem arith_cases {len : Nat} {op : BitVec w.bits → BitVec w.bits → Except Trap (BitVec w.bits)}
    (h : arith w dst src len op s = .next t) :
    (∃ a b r u, s.readLoc (dstLoc dst) w = .ok a ∧ s.value src w = .ok b ∧ op a b = .ok r ∧
      s.writeLoc (dstLoc dst) w r = .ok u ∧ t = u.advance len) ∨
    (∃ e, s.readLoc (dstLoc dst) w = .error e ∧ t = s.raise e) ∨
    (∃ a e, s.readLoc (dstLoc dst) w = .ok a ∧ s.value src w = .error e ∧ t = s.raise e) ∨
    (∃ a b e, s.readLoc (dstLoc dst) w = .ok a ∧ s.value src w = .ok b ∧ op a b = .error e ∧ t = s.raise e) := by
  rcases complete_next h with h | ⟨e, he, rfl⟩
  · obtain ⟨a, ha, h⟩ := bind_ok.1 h
    obtain ⟨b, hb, h⟩ := bind_ok.1 h
    obtain ⟨r, hr, h⟩ := bind_ok.1 h
    obtain ⟨u, hu, h⟩ := bind_ok.1 h
    exact .inl ⟨a, b, r, u, ha, hb, hr, hu, (Except.ok.inj h).symm⟩
  · rcases bind_error.1 he with h | ⟨a, ha, h⟩
    · exact .inr (.inl ⟨e, h, rfl⟩)
    · rcases bind_error.1 h with h | ⟨b, hb, h⟩
      · exact .inr (.inr (.inl ⟨a, e, ha, h, rfl⟩))
      · rcases bind_error.1 h with h | ⟨r, hr, h⟩
        · exact .inr (.inr (.inr ⟨a, b, e, ha, hb, h, rfl⟩))
        · obtain ⟨u, hu⟩ := writeLoc_exists (s := s) (l := dstLoc dst) r (readLoc_ok_iff.1 ⟨a, ha⟩)
          simp [hu] at h

/-- The family's result, where both operands are read and the operation gives one. -/
theorem arith_ok {len : Nat} {op : BitVec w.bits → BitVec w.bits → Except Trap (BitVec w.bits)}
    {a b r : BitVec w.bits} (ha : s.readLoc (dstLoc dst) w = .ok a) (hb : s.value src w = .ok b)
    (hr : op a b = .ok r) :
    ∃ u, s.writeLoc (dstLoc dst) w r = .ok u ∧ arith w dst src len op s = .next (u.advance len) := by
  obtain ⟨u, hu⟩ := writeLoc_exists (s := s) (l := dstLoc dst) r (readLoc_ok_iff.1 ⟨a, ha⟩)
  exact ⟨u, hu, by simp [arith, ha, hb, hr, hu]⟩

/-- The family's trap, where both operands are read and the operation raises one. -/
theorem arith_error {len : Nat} {op : BitVec w.bits → BitVec w.bits → Except Trap (BitVec w.bits)}
    {a b : BitVec w.bits} {e : Trap} (ha : s.readLoc (dstLoc dst) w = .ok a) (hb : s.value src w = .ok b)
    (hr : op a b = .error e) : arith w dst src len op s = .next (s.raise e) := by
  simp [arith, ha, hb, hr]

/-- The only traps of `div` and `mod` themselves. -/
theorem opDiv_error {cfg : Config} {ip : Word} {n : Nat} {a b : BitVec n} {e : Trap}
    (h : opDiv cfg ip a b = .error e) : e = .arithmeticError ip .div := by
  unfold opDiv at h
  repeat' split at h
  all_goals first | exact (Except.error.inj h).symm | cases h

theorem opMod_error {cfg : Config} {ip : Word} {n : Nat} {a b : BitVec n} {e : Trap}
    (h : opMod cfg ip a b = .error e) : e = .arithmeticError ip .mod := by
  unfold opMod at h
  repeat' split at h
  all_goals first | exact (Except.error.inj h).symm | cases h

/-! ## `int` -/

/-- What a dispatcher's writes leave alone (rule R192). -/
theorem hostWrite_frame (s : State) (e : HostWrite) :
    (s.hostWrite e).ip = s.ip ∧ (s.hostWrite e).status = s.status ∧ SameLaunch s (s.hostWrite e) := by
  cases e with
  | mem a v =>
    simp only [State.hostWrite]
    split <;> exact ⟨rfl, rfl, rfl, rfl, rfl⟩
  | _ => exact ⟨rfl, rfl, rfl, rfl, rfl⟩

theorem hostWrites_frame (s : State) (ws : List HostWrite) :
    (s.hostWrites ws).ip = s.ip ∧ (s.hostWrites ws).status = s.status ∧ SameLaunch s (s.hostWrites ws) := by
  induction ws generalizing s with
  | nil => exact ⟨rfl, rfl, rfl, rfl, rfl⟩
  | cons e ws ih =>
    obtain ⟨h1, h2, h3⟩ := hostWrite_frame s e
    obtain ⟨g1, g2, g3⟩ := ih (s.hostWrite e)
    exact ⟨g1.trans h1, g2.trans h2, g3.cfg.trans h3.cfg, g3.answers.trans h3.answers, g3.calls.trans h3.calls⟩

/-- The count of calls and the dispatcher's writes do not meet. -/
theorem hostWrites_noteCall (s : State) (ws : List HostWrite) :
    s.noteCall.hostWrites ws = (s.hostWrites ws).noteCall := by
  induction ws generalizing s with
  | nil => rfl
  | cons e ws ih =>
    have one : s.noteCall.hostWrite e = (s.hostWrite e).noteCall := by
      cases e with
      | mem a v =>
        by_cases ha : a.toNat < s.cfg.memSize
        · exact (if_pos ha : s.noteCall.hostWrite (.mem a v) = _).trans
            (congrArg State.noteCall (if_pos ha : s.hostWrite (.mem a v) = _).symm)
        · exact (if_neg ha : s.noteCall.hostWrite (.mem a v) = _).trans
            (congrArg State.noteCall (if_neg ha : s.hostWrite (.mem a v) = _).symm)
      | _ => rfl
    calc s.noteCall.hostWrites (e :: ws) = (s.noteCall.hostWrite e).hostWrites ws := rfl
      _ = ((s.hostWrite e).hostWrites ws).noteCall := by rw [one, ih]

/-- The dispatcher's writes keep memory's form and bounds, and cf's upper bits 0. -/
theorem hostWrites_keep (s : State) (ws : List HostWrite) (hw : s.mem.wf = true)
    (hb : s.mem.below s.cfg.memSize = true) (hc : s.cf &&& 0xF8#8 = 0#8) :
    (s.hostWrites ws).mem.wf = true ∧ (s.hostWrites ws).mem.below s.cfg.memSize = true ∧
      (s.hostWrites ws).cf &&& 0xF8#8 = 0#8 := by
  induction ws generalizing s with
  | nil => exact ⟨hw, hb, hc⟩
  | cons e ws ih =>
    have hcfg := (hostWrite_frame s e).2.2.cfg
    have step : (s.hostWrite e).mem.wf = true ∧ (s.hostWrite e).mem.below s.cfg.memSize = true ∧
        (s.hostWrite e).cf &&& 0xF8#8 = 0#8 := by
      cases e with
      | mem a v =>
        simp only [State.hostWrite]
        split
        · rename_i ha
          exact ⟨wf_write _ _ hw, below_write _ ha hb, hc⟩
        · exact ⟨hw, hb, hc⟩
      | cf v =>
        refine ⟨hw, hb, ?_⟩
        rw [State.hostWrite, setCf_cf, BitVec.and_assoc]
        simp
      | _ => exact ⟨hw, hb, hc⟩
    have := ih (s.hostWrite e) step.1 (hcfg.symm ▸ step.2.1) step.2.2
    rw [hcfg] at this
    exact this

/-- Where a handler is registered the dispatcher answers (rule R190). -/
theorem dispatch_some {n : Word} (h : s.hasHandler n = true) : ∃ a, s.dispatch n = some a := by
  unfold State.dispatch
  rw [if_pos h]
  cases s.answers <;> exact ⟨_, rfl⟩

theorem dispatch_none {n : Word} : s.dispatch n = none ↔ s.hasHandler n = false := by
  cases h : s.hasHandler n with
  | true =>
    obtain ⟨a, ha⟩ := dispatch_some h
    simp [ha]
  | false => simp [State.dispatch, h]

/-- `int` finishes as the dispatcher answers, or raises its number's MemoryFault or UnknownInterrupt. -/
theorem execInt_cases (h : execInt src s = .next t) :
    (∃ n a, s.number src = .ok n ∧ s.dispatch n = some a ∧
      t = (s.noteCall.hostWrites a.writes).finishInt (Instr.int src).length a.outcome) ∨
    (∃ e, s.number src = .error e ∧ t = s.raise e) ∨
    (∃ n, s.number src = .ok n ∧ s.dispatch n = none ∧ t = s.raise (.unknownInterrupt s.ip n)) := by
  unfold execInt at h
  cases hn : s.number src with
  | error e =>
    rw [hn] at h
    cases h
    exact .inr (.inl ⟨e, rfl, rfl⟩)
  | ok n =>
    rw [hn] at h
    cases hd : s.dispatch n with
    | none =>
      simp only [ok_bind, hd] at h
      cases h
      exact .inr (.inr ⟨n, rfl, hd, rfl⟩)
    | some a =>
      simp only [ok_bind, hd] at h
      cases h
      exact .inl ⟨n, a, rfl, hd, rfl⟩

/-- What finishing an `int` changes: ip, and the status on Terminate. -/
theorem finishInt_frame (s : State) (len : Nat) (o : DispatchOutcome) :
    (s.finishInt len o).regs = s.regs ∧ (s.finishInt len o).cf = s.cf ∧ (s.finishInt len o).mem = s.mem ∧
      SameLaunch s (s.finishInt len o) := by
  cases o with
  | jump t =>
    simp only [State.finishInt]
    split <;> exact ⟨rfl, rfl, rfl, rfl, rfl, rfl⟩
  | _ => exact ⟨rfl, rfl, rfl, rfl, rfl, rfl⟩

theorem finishInt_status (s : State) (len : Nat) (o : DispatchOutcome) :
    (s.finishInt len o).status = s.status ∨ (s.finishInt len o).status = .halted := by
  cases o with
  | jump t =>
    simp only [State.finishInt]
    split <;> exact .inl rfl
  | resume => exact .inl rfl
  | terminate => exact .inr rfl

end Sys2Proof.Machine.Laws
end

