-- ==== Sys2Proof/Laws/HostControl.lean ====
section
/-! SUPPORT. What a run does at each point, said once: where it stands still, where a halt request falls, and where it
steps. -/

namespace Sys2Proof.Machine.Laws

variable {s t : State}

theorem runAt_running (h : s.status = .running) : s.runAt = .going s := by
  unfold State.runAt
  rw [h]

theorem runAt_stopped (h : s.status ≠ .running) : s.runAt = .returned s := by
  unfold State.runAt
  split
  · exact absurd ‹_› h
  · rfl
  · rfl

theorem runAt_going : s.runAt = .going t ↔ s.status = .running ∧ t = s := by
  by_cases h : s.status = .running
  · simp [runAt_running h, h, eq_comm]
  · simp [runAt_stopped h, h]

theorem runUntilStopped_nil (s : State) : runUntilStopped [] s = .next s.runAt := rfl

/-- A run that meets a stopped state returns it, whatever the host asks later. -/
theorem runUntilStopped_stopped (halts : List Bool) (h : s.status ≠ .running) :
    runUntilStopped halts s = .next (.returned s) := by
  cases halts with
  | nil => rw [runUntilStopped_nil, runAt_stopped h]
  | cons halt later =>
    rw [runUntilStopped]
    split
    · exact absurd ‹_› h
    · rfl
    · rfl

/-- A halt request before a step of a Running core ends the run there. -/
theorem runUntilStopped_halt (later : List Bool) (h : s.status = .running) :
    runUntilStopped (true :: later) s = .next (.returned { s with status := .halted }) := by
  rw [runUntilStopped, h]
  unfold State.hostHalt
  rw [h]
  rfl

/-- With no halt request a run of a Running core goes on from the state its step answers. -/
theorem runUntilStopped_step (later : List Bool) (h : s.status = .running) (hs : step s = .next t) :
    runUntilStopped (false :: later) s = runUntilStopped later t := by
  rw [runUntilStopped, h, hs]
  rfl

end Sys2Proof.Machine.Laws
end

