-- ==== Sys2Proof/Laws/PerInstr.lean ====
section
/-! SUPPORT. A statement made of each instruction as syntax: the opcode it is encoded with is the row of the
opcode map (rule R81 of spec/30_encoding.md) that the decoder gives back to it. -/

namespace Sys2Proof.Laws.OpcodeRow

/-- `i` is encoded with a two-byte opcode below 0x10 whose row of the map makes `i` again from its operands. -/
def Statement (i : Instr) : Prop :=
  ∃ op rest, op < 16 ∧ encode i = BitVec.ofNat 8 op :: 0x00#8 :: rest ∧
    ((∃ mk w dst src, dataOp op = some mk ∧ i = mk w dst src) ∨ ∃ mk src, controlOp op = some mk ∧ i = mk src)

theorem ld (w : Width) (dst : Dst) (src : Src) : Statement (.ld w dst src) :=
  ⟨0, _, by decide, rfl, .inl ⟨_, w, dst, src, rfl, rfl⟩⟩

theorem st (w : Width) (dst : Dst) (src : Src) : Statement (.st w dst src) :=
  ⟨1, _, by decide, rfl, .inl ⟨_, w, dst, src, rfl, rfl⟩⟩

theorem cmp (w : Width) (dst : Dst) (src : Src) : Statement (.cmp w dst src) :=
  ⟨2, _, by decide, rfl, .inl ⟨_, w, dst, src, rfl, rfl⟩⟩

theorem add (w : Width) (dst : Dst) (src : Src) : Statement (.add w dst src) :=
  ⟨3, _, by decide, rfl, .inl ⟨_, w, dst, src, rfl, rfl⟩⟩

theorem sub (w : Width) (dst : Dst) (src : Src) : Statement (.sub w dst src) :=
  ⟨4, _, by decide, rfl, .inl ⟨_, w, dst, src, rfl, rfl⟩⟩

theorem mul (w : Width) (dst : Dst) (src : Src) : Statement (.mul w dst src) :=
  ⟨5, _, by decide, rfl, .inl ⟨_, w, dst, src, rfl, rfl⟩⟩

theorem div (w : Width) (dst : Dst) (src : Src) : Statement (.div w dst src) :=
  ⟨6, _, by decide, rfl, .inl ⟨_, w, dst, src, rfl, rfl⟩⟩

theorem mod (w : Width) (dst : Dst) (src : Src) : Statement (.mod w dst src) :=
  ⟨7, _, by decide, rfl, .inl ⟨_, w, dst, src, rfl, rfl⟩⟩

theorem jmp (src : Src) : Statement (.jmp src) := ⟨8, _, by decide, rfl, .inr ⟨_, src, rfl, rfl⟩⟩

theorem je (src : Src) : Statement (.je src) := ⟨9, _, by decide, rfl, .inr ⟨_, src, rfl, rfl⟩⟩

theorem jne (src : Src) : Statement (.jne src) := ⟨10, _, by decide, rfl, .inr ⟨_, src, rfl, rfl⟩⟩

theorem jg (src : Src) : Statement (.jg src) := ⟨11, _, by decide, rfl, .inr ⟨_, src, rfl, rfl⟩⟩

theorem jge (src : Src) : Statement (.jge src) := ⟨12, _, by decide, rfl, .inr ⟨_, src, rfl, rfl⟩⟩

theorem jl (src : Src) : Statement (.jl src) := ⟨13, _, by decide, rfl, .inr ⟨_, src, rfl, rfl⟩⟩

theorem jle (src : Src) : Statement (.jle src) := ⟨14, _, by decide, rfl, .inr ⟨_, src, rfl, rfl⟩⟩

theorem int (src : Src) : Statement (.int src) := ⟨15, _, by decide, rfl, .inr ⟨_, src, rfl, rfl⟩⟩

end Sys2Proof.Laws.OpcodeRow
end

