-- ==== Sys2Proof/Tests/Slice0.lean ====
section
/-! SUPPORT. Tests. Every expected value is the spec's: the vectors of spec/95_test_vectors.md (named in each
comment by their ids), the example encodings of rule R120, and the encoding tables of spec/30_encoding.md. After them, for
each statement that has hypotheses, states and operands that meet them. -/

namespace Sys2Proof.Tests

open Sys2Proof Sys2Proof.Machine

/-! ## Helpers -/

/-- The vectors' starting state: reset, registers set, `code` at 0, and `data` at 0x100. -/
def start (regs : List (Reg × Word)) (code : List Byte) (data : List Byte := []) : State :=
  (regs.foldl (fun s p => s.setReg p.1 p.2) State.reset).setMem ((Memory.writeBytes [] 0 code).writeBytes 0x100 data)

/-- `code` at `ip`, near the top of memory. -/
def startAt (ip : Word) (code : List Byte) : State :=
  { State.reset with ip := ip, mem := Memory.writeBytes [] ip.toNat code }

/-- What `f` shows of the state a step answers. -/
def see {α : Type} (s : State) (f : State → α) : Option α :=
  match step s with
  | .next t => some (f t)
  | _ => none

/-- A register, ip and the status. -/
def regView (k : Reg) (t : State) : Word × Word × Status := (t.reg k, t.ip, t.status)

/-- The bytes at 0x100, ip and the status. -/
def memView (n : Nat) (t : State) : List Byte × Word × Status := (t.mem.bytes 0x100 n, t.ip, t.status)

/-- cf, ip and the status. -/
def flagView (t : State) : Byte × Word × Status := (t.cf, t.ip, t.status)

/-- The decoder's answer, for comparison. -/
def read (bs : List Byte) : Option Instr :=
  match decode bs with
  | .ok (i, []) => some i
  | _ => none

/-- Why the decoder stopped. -/
def stop (bs : List Byte) : Option Reject :=
  match decode bs with
  | .ok _ => none
  | .error r => some r

/-- Under SIGNEDNESS = Signed. -/
def signed (s : State) (o : SignedDivOverflow := .fault) : State :=
  { s with cfg := { s.cfg with signedness := .signed, signedDivOverflow := o } }

/-- With a handler for every number that gives `a`. -/
def handled (s : State) (a : DispatchAnswer) (p : IntJumpPolicy := .handlerJumpOverrides) : State :=
  { s with answers := [a], cfg := { s.cfg with defaultHandler := true, intJumpPolicy := p } }

/-! ## Well-formedness: the check refuses -/

/-- rule R90: a Byte immediate has 8 bits -/
theorem test_wf_refuses_wide_byte_immediate : (Instr.add .byte (.reg .i0) (.imm 0x100#32)).wellFormed = false := by decide

/-- rule R90: a Word immediate has 16 bits -/
theorem test_wf_refuses_wide_word_immediate : (Instr.ld .word (.mem 0#32) (.imm 0x10000#32)).wellFormed = false := by
  decide

/-- rule R89 -/
theorem test_wf_refuses_st_immediate : (Instr.st .double (.reg (.r 5)) (.imm 5#32)).wellFormed = false := by decide

/-- the widest immediates fit -/
theorem test_wf_accepts_full_immediates :
    (Instr.add .byte (.reg .i0) (.imm 0xFF#32)).wellFormed = true ∧
    (Instr.cmp .double (.reg .i0) (.imm 0xFFFFFFFF#32)).wellFormed = true := by decide

/-! ## Decoding: a word for every constructor, written out from rules R81–R91 -/

/-- L4: `ld_w [0x200], r1` -/
theorem test_decode_ld : read [0x00#8, 0x00#8, 0x01#8, 0x01#8, 0x00#8, 0x02#8, 0x00#8, 0x00#8, 0x00#8, 0x01#8] =
    some (.ld .word (.mem 0x200#32) (.reg (.r 1))) := by decide

/-- S2: `st_b r0, [r2]` -/
theorem test_decode_st : read [0x01#8, 0x00#8, 0x00#8, 0x00#8, 0x00#8, 0x03#8, 0x02#8] =
    some (.st .byte (.reg (.r 0)) (.ind (.r 2))) := by decide

/-- C6: `cmp_w [0x100], #0xBBAB` -/
theorem test_decode_cmp :
    read [0x02#8, 0x00#8, 0x01#8, 0x01#8, 0x00#8, 0x01#8, 0x00#8, 0x00#8, 0x02#8, 0xAB#8, 0xBB#8] =
      some (.cmp .word (.mem 0x100#32) (.imm 0xBBAB#32)) := by decide

/-- A5: `add_w r9, i0` -/
theorem test_decode_add : read [0x03#8, 0x00#8, 0x01#8, 0x00#8, 0x09#8, 0x00#8, 0x14#8] =
    some (.add .word (.reg (.r 9)) (.reg .i0)) := by decide

/-- B1: `sub_w r1, #5` -/
theorem test_decode_sub : read [0x04#8, 0x00#8, 0x01#8, 0x00#8, 0x01#8, 0x02#8, 0x05#8, 0x00#8] =
    some (.sub .word (.reg (.r 1)) (.imm 5#32)) := by decide

/-- M1: `mul_d r2, #6` -/
theorem test_decode_mul : read [0x05#8, 0x00#8, 0x02#8, 0x00#8, 0x02#8, 0x02#8, 0x06#8, 0x00#8, 0x00#8, 0x00#8] =
    some (.mul .double (.reg (.r 2)) (.imm 6#32)) := by decide

/-- Q6: `div_d r0, [0x3000]` -/
theorem test_decode_div : read [0x06#8, 0x00#8, 0x02#8, 0x00#8, 0x00#8, 0x01#8, 0x00#8, 0x30#8, 0x00#8, 0x00#8] =
    some (.div .double (.reg (.r 0)) (.mem 0x3000#32)) := by decide

/-- Q7: `mod_b [0x100], r1` -/
theorem test_decode_mod : read [0x07#8, 0x00#8, 0x00#8, 0x01#8, 0x00#8, 0x01#8, 0x00#8, 0x00#8, 0x00#8, 0x01#8] =
    some (.mod .byte (.mem 0x100#32) (.reg (.r 1))) := by decide

/-- R120: `jmp r3` -/
theorem test_decode_jmp : read [0x08#8, 0x00#8, 0x00#8, 0x03#8] = some (.jmp (.reg (.r 3))) := by decide

/-- J3: `je #0x40` -/
theorem test_decode_je : read [0x09#8, 0x00#8, 0x02#8, 0x40#8, 0x00#8, 0x00#8, 0x00#8] = some (.je (.imm 0x40#32)) := by
  decide

/-- J5: `jne #0x40` -/
theorem test_decode_jne : read [0x0A#8, 0x00#8, 0x02#8, 0x40#8, 0x00#8, 0x00#8, 0x00#8] =
    some (.jne (.imm 0x40#32)) := by decide

/-- J6: `jg [r1]` -/
theorem test_decode_jg : read [0x0B#8, 0x00#8, 0x03#8, 0x01#8] = some (.jg (.ind (.r 1))) := by decide

/-- J10: `jge #0x40` -/
theorem test_decode_jge : read [0x0C#8, 0x00#8, 0x02#8, 0x40#8, 0x00#8, 0x00#8, 0x00#8] =
    some (.jge (.imm 0x40#32)) := by decide

/-- J7: `jl #0x40` -/
theorem test_decode_jl : read [0x0D#8, 0x00#8, 0x02#8, 0x40#8, 0x00#8, 0x00#8, 0x00#8] = some (.jl (.imm 0x40#32)) := by
  decide

/-- J9: `jle i0` -/
theorem test_decode_jle : read [0x0E#8, 0x00#8, 0x00#8, 0x14#8] = some (.jle (.reg .i0)) := by decide

/-- I4: `int [0x100]` -/
theorem test_decode_int : read [0x0F#8, 0x00#8, 0x01#8, 0x00#8, 0x01#8, 0x00#8, 0x00#8] = some (.int (.mem 0x100#32)) := by
  decide

/-- E1, E3, E4, E6, E8, E12, E13 -/
theorem test_decode_illegal_fields :
    stop [0x10#8, 0x00#8] = some (.illegal 0 .opcode 0x0010#16) ∧
    stop [0x00#8, 0x01#8] = some (.illegal 0 .opcode 0x0100#16) ∧
    stop [0x00#8, 0x00#8, 0x03#8, 0x00#8, 0x00#8, 0x02#8, 0x01#8] = some (.illegal 2 .width 0x03#16) ∧
    stop [0x03#8, 0x00#8, 0x02#8, 0x02#8, 0x00#8] = some (.illegal 3 .dtag 0x02#16) ∧
    stop [0x03#8, 0x00#8, 0x02#8, 0x00#8, 0x0A#8, 0x02#8] = some (.illegal 4 .register 0x0A#16) ∧
    stop [0x03#8, 0x00#8, 0x02#8, 0x00#8, 0x00#8, 0x04#8] = some (.illegal 5 .stag 0x04#16) ∧
    stop [0x01#8, 0x00#8, 0x02#8, 0x00#8, 0x05#8, 0x02#8, 0x05#8] = some (.illegal 5 .stag 0x02#16) := by decide

/-- E14, E15, E16, E17, E19 -/
theorem test_decode_illegal_operands :
    stop [0x08#8, 0x00#8, 0x04#8] = some (.illegal 2 .stag 0x04#16) ∧
    stop [0x08#8, 0x00#8, 0x00#8, 0x0A#8] = some (.illegal 3 .register 0x0A#16) ∧
    stop [0x03#8, 0x00#8, 0x02#8, 0x00#8, 0x00#8, 0x03#8, 0x0B#8] = some (.illegal 6 .register 0x0B#16) ∧
    stop [0x03#8, 0x00#8, 0x02#8, 0x01#8, 0x00#8, 0x01#8, 0x00#8, 0x00#8, 0x00#8, 0x15#8] =
      some (.illegal 9 .register 0x15#16) ∧
    stop [0x03#8, 0x00#8, 0x03#8, 0x00#8, 0x0A#8] = some (.illegal 2 .width 0x03#16) := by decide

/-- The opcode table's word 0x0008 is `jmp r0`: its operand bytes are 0. -/
theorem test_decode_table_word : decodeTableWord 16 0x0008 = some (.jmp (.reg (.r 0))) ∧
    decodeTableWord 16 0x0000 = some (.ld .byte (.reg (.r 0)) (.reg (.r 0))) := by decide

/-! ## Steps -/

/-- X7, L1 -/
theorem test_ld_word_keeps_high_half :
    see (start [(.r 2, 0x11223344#32)] [0x00#8, 0x00#8, 0x01#8, 0x00#8, 0x02#8, 0x01#8, 0x00#8, 0x01#8, 0x00#8, 0x00#8]
      [0xAA#8, 0xBB#8, 0xCC#8, 0xDD#8]) (regView (.r 2)) = some (0x1122BBAA#32, 0xA#32, .running) := by decide

/-- L12: overlapping ranges read the old bytes first -/
theorem test_ld_overlap :
    see (start [] [0x00#8, 0x00#8, 0x01#8, 0x01#8, 0x01#8, 0x01#8, 0x00#8, 0x00#8, 0x01#8, 0x00#8, 0x01#8, 0x00#8, 0x00#8]
      [0xAA#8, 0xBB#8, 0xCC#8, 0xDD#8]) (memView 4) = some ([0xAA#8, 0xAA#8, 0xBB#8, 0xDD#8], 0xD#32, .running) := by
  decide

/-- S2 -/
theorem test_st_byte_through_register :
    see (start [(.r 0, 0x1234#32), (.r 2, 0x100#32)] [0x01#8, 0x00#8, 0x00#8, 0x00#8, 0x00#8, 0x03#8, 0x02#8]
      [0xAA#8, 0xBB#8, 0xCC#8, 0xDD#8]) (memView 4) = some ([0x34#8, 0xBB#8, 0xCC#8, 0xDD#8], 7#32, .running) := by decide

/-- S3: the source operand is the location -/
theorem test_st_register_location :
    see (start [(.r 0, 0xAAAA1234#32), (.r 1, 0xBBBBBBBB#32)] [0x01#8, 0x00#8, 0x01#8, 0x00#8, 0x00#8, 0x00#8, 0x01#8])
      (regView (.r 1)) = some (0xBBBB1234#32, 7#32, .running) := by decide

/-- C6 -/
theorem test_cmp_less :
    see (start [] [0x02#8, 0x00#8, 0x01#8, 0x01#8, 0x00#8, 0x01#8, 0x00#8, 0x00#8, 0x02#8, 0xAB#8, 0xBB#8]
      [0xAA#8, 0xBB#8, 0xCC#8, 0xDD#8]) flagView = some (0b001#8, 0xB#32, .running) := by decide

/-- C2 and C2s -/
theorem test_cmp_signedness :
    let s := start [(.r 0, 0x80#32)] [0x02#8, 0x00#8, 0x00#8, 0x00#8, 0x00#8, 0x02#8, 0x01#8]
    see s flagView = some (0b100#8, 7#32, .running) ∧ see (signed s) flagView = some (0b001#8, 7#32, .running) := by decide

/-- X5, A1 -/
theorem test_add_byte_wraps :
    see (start [(.r 0, 0x123456FF#32)] [0x03#8, 0x00#8, 0x00#8, 0x00#8, 0x00#8, 0x02#8, 0x02#8]) (regView (.r 0)) =
      some (0x12345601#32, 7#32, .running) := by decide

/-- A4 -/
theorem test_add_memory_destination :
    see (start [] [0x03#8, 0x00#8, 0x02#8, 0x01#8, 0x00#8, 0x01#8, 0x00#8, 0x00#8, 0x02#8, 0x01#8, 0x00#8, 0x00#8, 0x00#8]
      [0xAA#8, 0xBB#8, 0xCC#8, 0xDD#8]) (memView 4) = some ([0xAB#8, 0xBB#8, 0xCC#8, 0xDD#8], 0xD#32, .running) := by
  decide

/-- B1 -/
theorem test_sub_word_borrows :
    see (start [(.r 1, 0xAAAA0003#32)] [0x04#8, 0x00#8, 0x01#8, 0x00#8, 0x01#8, 0x02#8, 0x05#8, 0x00#8]) (regView (.r 1)) =
      some (0xAAAAFFFE#32, 8#32, .running) := by decide

/-- M2 -/
theorem test_mul_byte_wraps :
    see (start [(.r 0, 0xAB10#32)] [0x05#8, 0x00#8, 0x00#8, 0x00#8, 0x00#8, 0x02#8, 0x10#8]) (regView (.r 0)) =
      some (0xAB00#32, 7#32, .running) := by decide

/-- M3 -/
theorem test_mul_low_half :
    see (start [(.r 0, 0xFFFFFFFF#32)] [0x05#8, 0x00#8, 0x02#8, 0x00#8, 0x00#8, 0x00#8, 0x00#8]) (regView (.r 0)) =
      some (1#32, 7#32, .running) := by decide

/-- D4 and D4s -/
theorem test_div_signedness :
    let s := start [(.r 0, 0xABF9#32)] [0x06#8, 0x00#8, 0x00#8, 0x00#8, 0x00#8, 0x02#8, 0x02#8]
    see s (regView (.r 0)) = some (0xAB7C#32, 7#32, .running) ∧
      see (signed s) (regView (.r 0)) = some (0xABFD#32, 7#32, .running) := by decide

/-- D3: only the divisor's low byte counts -/
theorem test_div_by_zero_byte :
    see (start [(.r 0, 10#32), (.r 1, 0x100#32)] [0x06#8, 0x00#8, 0x00#8, 0x00#8, 0x00#8, 0x00#8, 0x01#8])
      (regView (.r 0)) = some (10#32, 0#32, .trapped (.arithmeticError 0#32 .div)) := by decide

/-- O1 -/
theorem test_mod_remainder :
    see (start [(.r 0, 17#32)] [0x07#8, 0x00#8, 0x02#8, 0x00#8, 0x00#8, 0x02#8, 0x05#8, 0x00#8, 0x00#8, 0x00#8])
      (regView (.r 0)) = some (2#32, 0xA#32, .running) := by decide

/-- Q7 -/
theorem test_mod_by_zero_byte :
    see (start [(.r 1, 0x300#32)] [0x07#8, 0x00#8, 0x00#8, 0x01#8, 0x00#8, 0x01#8, 0x00#8, 0x00#8, 0x00#8, 0x01#8] [0x09#8])
      (memView 1) = some ([0x09#8], 0#32, .trapped (.arithmeticError 0#32 .mod)) := by decide

/-- J8: the jump completes, the next fetch faults -/
theorem test_jmp_outside_memory :
    let s := start [] [0x08#8, 0x00#8, 0x02#8, 0x00#8, 0x20#8, 0x00#8, 0x00#8]
    see s (regView (.r 0)) = some (0#32, 0x2000#32, .running) ∧
      see (startAt 0x2000#32 []) (regView (.r 0)) =
        some (0#32, 0x2000#32, .trapped (.memoryFault 0x2000#32 0x2000#32 .byte .fetch)) := by decide

/-- J3 and J4 -/
theorem test_je_go_and_no_go :
    let s := start [] [0x09#8, 0x00#8, 0x02#8, 0x40#8, 0x00#8, 0x00#8, 0x00#8]
    see (s.setCf 0b010#8) flagView = some (0b010#8, 0x40#32, .running) ∧
      see (s.setCf 0b001#8) flagView = some (0b001#8, 0x7#32, .running) := by decide

/-- J5 -/
theorem test_jne_after_reset :
    see (start [] [0x0A#8, 0x00#8, 0x02#8, 0x40#8, 0x00#8, 0x00#8, 0x00#8]) flagView = some (0#8, 0x40#32, .running) := by
  decide

/-- J6: an Ind target is the register's value -/
theorem test_jg_indirect :
    see ((start [(.r 1, 0x77#32)] [0x0B#8, 0x00#8, 0x03#8, 0x01#8]).setCf 0b100#8) flagView =
      some (0b100#8, 0x77#32, .running) := by decide

/-- J10 and J11 -/
theorem test_jge_go_and_no_go :
    let s := start [] [0x0C#8, 0x00#8, 0x02#8, 0x40#8, 0x00#8, 0x00#8, 0x00#8]
    see (s.setCf 0b001#8) flagView = some (0b001#8, 0x7#32, .running) ∧
      see (s.setCf 0b110#8) flagView = some (0b110#8, 0x40#32, .running) := by decide

/-- J7 and J12 -/
theorem test_jl_go_and_no_go :
    let s := start [] [0x0D#8, 0x00#8, 0x02#8, 0x40#8, 0x00#8, 0x00#8, 0x00#8]
    see (s.setCf 0b100#8) flagView = some (0b100#8, 0x7#32, .running) ∧
      see (s.setCf 0b011#8) flagView = some (0b011#8, 0x40#32, .running) := by decide

/-- J9 -/
theorem test_jle_register :
    see ((start [(.i0, 0x10#32)] [0x0E#8, 0x00#8, 0x00#8, 0x14#8]).setCf 0b010#8) flagView =
      some (0b010#8, 0x10#32, .running) := by decide

/-- I1 and I2 -/
theorem test_int_harness :
    see (start [] [0x0F#8, 0x00#8, 0x02#8, 0x00#8, 0x00#8, 0x00#8, 0x00#8]) (regView (.r 0)) =
        some (0#32, 7#32, .halted) ∧
      see (start [(.r 0, 3#32)] [0x0F#8, 0x00#8, 0x02#8, 0x07#8, 0x00#8, 0x00#8, 0x00#8]) (regView (.r 0)) =
        some (3#32, 0#32, .trapped (.unknownInterrupt 0#32 7#32)) := by decide

/-- I8, I7 and I7a -/
theorem test_int_answers :
    let s := start [] [0x0F#8, 0x00#8, 0x02#8, 0x05#8, 0x00#8, 0x00#8, 0x00#8]
    see (handled s ⟨[.r 0 0x1234#32, .cf 0xFF#8, .mem 0x100#32 0x09#8], .resume⟩)
        (fun t => (t.reg (.r 0), t.cf, t.mem.read 0x100, t.ip, t.status)) =
        some (0x1234#32, 0x07#8, 0x09#8, 7#32, .running) ∧
      see (handled s ⟨[], .jump 0x40#32⟩) flagView = some (0#8, 0x40#32, .running) ∧
      see (handled s ⟨[], .jump 0x40#32⟩ .alwaysAdvance) flagView = some (0#8, 7#32, .running) := by decide

/-- F3, F4: an illegal field before the missing bytes -/
theorem test_fetch_stops_at_the_first_illegal_field :
    see (startAt 0xFFE#32 [0x10#8, 0x00#8]) State.status = some (.trapped (.decodeError 0xFFE#32 0 .opcode 0x10#16)) ∧
      see (startAt 0xFFD#32 [0x03#8, 0x00#8, 0x07#8]) State.status =
        some (.trapped (.decodeError 0xFFD#32 2 .width 0x07#16)) := by decide

/-- F1, F2, F5 -/
theorem test_fetch_at_the_top_of_memory :
    see (startAt 0xFFA#32 [0x00#8, 0x00#8, 0x02#8, 0x00#8, 0x00#8, 0x02#8]) State.status =
        some (.trapped (.memoryFault 0xFFA#32 0x1000#32 .byte .fetch)) ∧
      see (startAt 0xFFF#32 [0x10#8]) State.status =
        some (.trapped (.memoryFault 0xFFF#32 0x1000#32 .byte .fetch)) ∧
      see (startAt 0xFF6#32 [0x03#8, 0x00#8, 0x02#8, 0x00#8, 0x00#8, 0x02#8, 0x01#8, 0x00#8, 0x00#8, 0x00#8])
        (regView (.r 0)) = some (1#32, 0x1000#32, .running) := by decide

/-- rule R200's codes -/
theorem test_trap_codes :
    (Trap.decodeError 0#32 0 .opcode 0x10#16).kind.code = 1 ∧ (Trap.memoryFault 0#32 0#32 .byte .fetch).kind.code = 2 ∧
    (Trap.arithmeticError 0#32 .mod).kind.code = 3 ∧ (Trap.unknownInterrupt 0#32 7#32).kind.code = 4 := by decide

/-- H2 and H3: reset() after a trap clears the registers and keeps memory. -/
theorem test_reset_after_trap :
    let s := (start [(.r 0, 3#32)] [0x06#8, 0x00#8]).raise (.arithmeticError 0#32 .div)
    (s.hostReset.reg (.r 0), s.hostReset.status, s.hostReset.mem.read 0) = (0#32, .running, 0x06#8) := by decide

/-- H4 -/
theorem test_halt_request : State.reset.hostHalt = State.reset.setStatus .halted := by decide

/-- The machine the host runs steps as the model does. -/
theorem test_core_is_the_machine : core.reset = State.reset ∧ core.step State.reset = step State.reset := ⟨rfl, rfl⟩

/-! ## Witnesses: states and operands that meet a statement's hypotheses, at the ends of their ranges -/

/-- The state after reset with r1 = 0xFFC, the last address of four bytes, and r2 = 0xFFD, one past it. -/
def edge : State := (State.reset.setReg (.r 1) 0xFFC#32).setReg (.r 2) 0xFFD#32

theorem witness_DecodeOfEncodeIsTheInstruction :
    (Instr.add .byte (.mem 0xFFFFFFFF#32) (.imm 0xFF#32)).wellFormed = true ∧
    (Instr.st .double (.reg (.r 9)) (.ind .i0)).wellFormed = true := by decide

theorem witness_DecodedBytesAreTheEncoding :
    decode [0x08#8, 0x00#8, 0x00#8, 0x14#8, 0xFF#8] = .ok (.jmp (.reg .i0), [0xFF#8]) := rfl

theorem witness_InstructionLengths :
    Instr.mod ∈ [Instr.ld, Instr.st, Instr.cmp, Instr.add, Instr.sub, Instr.mul, Instr.div, Instr.mod] ∧
    Instr.int ∈ [Instr.jmp, Instr.je, Instr.jne, Instr.jg, Instr.jge, Instr.jl, Instr.jle, Instr.int] := by simp

theorem witness_IllegalFieldsAreRejected :
    0x000F < (0x00#8 ++ 0x10#8).toNat ∧ (7 ≤ 7 ∧ 2 < (0x03#8).toNat) ∧ (0 ≤ 7 ∧ 1 < (0x02#8).toNat) ∧
    (10 ≤ (0x0A#8).toNat ∧ (0x0A#8).toNat ≠ 0x14) ∧ (10 ≤ (0x13#8).toNat ∧ (0x13#8).toNat ≠ 0x14) ∧
    (10 ≤ (0x15#8).toNat ∧ (0x15#8).toNat ≠ 0x14) ∧ 3 < (0x04#8).toNat ∧ (0x02#8).toNat = 2 ∧
    (8 ≤ 0xF ∧ 0xF ≤ 0xF) := by decide

theorem witness_StepRunsTheDecodedInstruction :
    let s := start [] [0x08#8, 0x00#8, 0x00#8, 0x03#8]
    s.status = .running ∧ decode s.fetchBytes = .ok (.jmp (.reg (.r 3)), List.replicate 9 0x00#8) := ⟨rfl, rfl⟩

/-- The last byte of the instruction is the last of memory. -/
theorem witness_StepRunsTheEncodedBytes :
    let i := Instr.add .double (.reg (.r 0)) (.imm 1#32)
    let s := startAt 0xFF6#32 (encode i)
    s.status = .running ∧ i.wellFormed = true ∧ s.ip.toNat + (encode i).length = s.cfg.memSize ∧
      ∀ (k : Nat) (h : k < (encode i).length), s.mem.read (s.ip.toNat + k) = (encode i)[k] := by decide

theorem witness_StoppedDecodingTraps :
    decode (startAt 0xFFE#32 [0x10#8, 0x00#8]).fetchBytes = .error (.illegal 0 .opcode 0x0010#16) ∧
    decode (startAt 0xFFF#32 [0x10#8]).fetchBytes = .error (.short 1) ∧
    (startAt 0xFFF#32 [0x10#8]).status = .running := ⟨rfl, rfl, rfl⟩

theorem witness_JumpOutsideMemoryFaultsAtTheNextFetch :
    (∃ t, exec (.jmp (.imm 0x1000#32)) State.reset = .next t ∧ State.reset.cfg.memSize ≤ t.ip.toNat) ∧
    (let i := Instr.ld .double (.reg (.r 0)) (.imm 0#32)
     let s := startAt 0xFFA#32 ((encode i).take 6)
     s.status = .running ∧ i.wellFormed = true ∧ 6 < (encode i).length ∧ s.ip.toNat + 6 = s.cfg.memSize ∧
       ∀ (j : Nat) (h : j < (encode i).length), j < 6 → s.mem.read (s.ip.toNat + j) = (encode i)[j]) :=
  ⟨⟨_, rfl, by decide⟩, by decide⟩

theorem witness_PlacedWordIsRunNext :
    decodeTableWord 16 0x000F = some (.int (.reg (.r 0))) ∧
    (startAt 0xFF3#32 []).ip.toNat + 13 ≤ (startAt 0xFF3#32 []).cfg.memSize := by decide

theorem witness_MemReadIsLittleEndian :
    (0xFFC#32).toNat + Width.bytes .double ≤ State.reset.cfg.memSize ∧
    State.reset.cfg.memSize < (0xFFD#32).toNat + Width.bytes .double := by decide

theorem witness_MemWriteStoresItsBytes :
    (0xFFF#32).toNat + Width.bytes .byte ≤ State.reset.cfg.memSize ∧
    State.reset.cfg.memSize < (0xFFF#32).toNat + Width.bytes .word := by decide

theorem witness_MixedWidthReadsSeeTheBytes :
    ((0xFFC#32).toNat + 4 ≤ State.reset.cfg.memSize ∧ State.reset.cfg.wf = true ∧ 2 + Width.bytes .word ≤ 4) ∧
    (∃ t, State.reset.memWrite 0xFFE#32 .word 0xBBAA#16 = .ok t ∧
      (0xFFC#32).toNat + Width.bytes .double ≤ State.reset.cfg.memSize) := ⟨by decide, ⟨_, rfl, by decide⟩⟩

theorem witness_SubWordRegisterAccess :
    (7 < Width.bits .byte) ∧ (Reg.i0 ≠ .r 9) ∧
    (∃ t, exec (.mul .byte (.reg .i0) (.reg .i0)) State.reset = .next t) ∧ Width.bits .byte ≤ 8 :=
  ⟨by decide, by decide, ⟨_, rfl⟩, by decide⟩

theorem witness_LdCopiesItsOperand :
    edge.readable (.ind (.r 1)) .double ∧ edge.reaches (dstLoc (.mem 0xFFE#32)) .word ∧
    edge.readable (.imm 5#32) .double ∧ edge.reaches (dstLoc (.reg .i0)) .double := by
  refine ⟨?_, ?_, ?_, ?_⟩ <;> intro a h <;> cases h <;> decide

theorem witness_StStoresTheValue :
    srcLoc edge (.ind (.r 1)) = some (.mem 0xFFC#32) ∧ edge.reaches (dstLoc (.mem 0xFFC#32)) .double ∧
    edge.reaches (.mem 0xFFC#32) .double ∧ srcLoc edge (.reg .i0) = some (.reg .i0) ∧
    edge.reaches (.reg .i0) .double := by
  refine ⟨rfl, ?_, ?_, rfl, ?_⟩ <;> intro a h <;> cases h <;> decide

theorem witness_LdStFaultsInOrder :
    (srcLoc edge (.ind (.r 2)) = some (.mem 0xFFD#32) ∧ edge.cfg.memSize < (0xFFD#32).toNat + Width.bytes .double) ∧
    edge.readable (.ind (.r 1)) .double ∧ (Src.ind (.r 1)).namesLocation = true ∧
    edge.reaches (dstLoc (.mem 0xFFC#32)) .double := by
  refine ⟨⟨rfl, by decide⟩, ?_, rfl, ?_⟩ <;> intro a h <;> cases h <;> decide

theorem witness_NonZeroingLaw :
    Reg.r 2 ≠ .r 1 ∧ (0xFFC#32).toNat + Width.bytes .double ≤ State.reset.cfg.memSize := by decide

theorem witness_CmpSetsTheRelationsFlag :
    edge.reaches (dstLoc (.mem 0xFFF#32)) .byte ∧ edge.readable (.ind (.r 1)) .double ∧
    edge.cfg.signedness = .unsigned ∧ (signed edge).cfg.signedness = .signed ∧
    (signed edge).reaches (dstLoc (.mem 0xFFF#32)) .byte ∧ (signed edge).readable (.imm 0x80#32) .byte := by
  refine ⟨?_, ?_, rfl, rfl, ?_, ?_⟩ <;> intro a h <;> cases h <;> decide

theorem witness_TwoOperandFaultsInOrder :
    edge.cfg.memSize < (0xFFF#32).toNat + Width.bytes .word ∧ edge.reaches (dstLoc (.mem 0xFFC#32)) .double ∧
    srcLoc edge (.ind (.r 2)) = some (.mem 0xFFD#32) ∧
    edge.cfg.memSize < (0xFFD#32).toNat + Width.bytes .double ∧
    Instr.mod ∈ [Instr.cmp, Instr.add, Instr.sub, Instr.mul, Instr.div, Instr.mod] := by
  refine ⟨by decide, ?_, rfl, by decide, by simp⟩
  intro a h; cases h; decide

theorem witness_AddSubMulResults :
    edge.reaches (dstLoc (.mem 0xFFC#32)) .double ∧ edge.readable (.mem 0xFFC#32) .double := by
  refine ⟨?_, ?_⟩ <;> intro a h <;> cases h <;> decide

theorem witness_UnsignedDivModResults :
    edge.cfg.signedness = .unsigned ∧ edge.readLoc (dstLoc (.reg (.r 1))) .byte = .ok 0xFC#8 ∧
    edge.value (.imm 1#32) .byte = .ok 1#8 ∧ (1#8 : BitVec (Width.bits .byte)) ≠ 0 := ⟨rfl, rfl, rfl, by decide⟩

theorem witness_SignedDivModResults :
    (signed edge).cfg.signedness = .signed ∧ (signed edge).readLoc (dstLoc (.reg (.r 1))) .byte = .ok 0xFC#8 ∧
    (signed edge).value (.imm 0xFF#32) .byte = .ok 0xFF#8 ∧ (0xFF#8 : BitVec (Width.bits .byte)) ≠ 0 ∧
    ¬ ((0xFC#8 : BitVec (Width.bits .byte)).toInt = -(2 ^ (Width.bits .byte - 1)) ∧
      (0xFF#8 : BitVec (Width.bits .byte)).toInt = -1) := ⟨rfl, rfl, rfl, by decide, by decide⟩

theorem witness_SignedOverflowFollowsItsSetting :
    let s := edge.setReg .i0 0x80#32
    (signed s).cfg.signedness = .signed ∧ (signed s).readLoc (dstLoc (.reg .i0)) .byte = .ok 0x80#8 ∧
    (signed s).value (.imm 0xFF#32) .byte = .ok 0xFF#8 ∧ (0x80#8).toInt = -(2 ^ (Width.bits .byte - 1)) ∧
    (0xFF#8).toInt = -1 ∧ (signed s).cfg.signedDivOverflow = .fault ∧
    (signed s .wrap).cfg.signedDivOverflow = .wrap ∧
    (signed s .wrap).readLoc (dstLoc (.reg .i0)) .byte = .ok 0x80#8 ∧
    (signed s .wrap).value (.imm 0xFF#32) .byte = .ok 0xFF#8 :=
  ⟨rfl, rfl, rfl, by decide, by decide, rfl, rfl, rfl, rfl⟩

theorem witness_ZeroDivisorTraps :
    edge.reaches (dstLoc (.mem 0xFFC#32)) .double ∧ edge.value (.imm 0#32) .double = .ok 0 := by
  refine ⟨?_, rfl⟩
  intro a h; cases h; decide

/-- By its length, to a target, to a dispatcher's target, and not at all. -/
theorem witness_IpChangesInItsThreeWays :
    State.reset.status = .running ∧ (∃ t, exec (.add .byte (.reg .i0) (.imm 1#32)) State.reset = .next t ∧ t.ip = 7#32) ∧
    (∃ t, exec (.jmp (.imm 0x40#32)) State.reset = .next t ∧ t.ip = 0x40#32) ∧
    (∃ t, exec (.int (.imm 5#32)) (handled State.reset ⟨[], .jump 0x40#32⟩) = .next t ∧ t.ip = 0x40#32) ∧
    (∃ t, exec (.int (.imm 5#32)) State.reset = .next t ∧ t.ip = 0#32) :=
  ⟨rfl, ⟨_, rfl, by decide⟩, ⟨_, rfl, by decide⟩, ⟨_, rfl, by decide⟩, ⟨_, rfl, by decide⟩⟩

theorem witness_IntFollowsTheOutcome :
    (State.reset.number (.reg .i0) = .ok 0#32 ∧ State.reset.hasHandler 0#32 = true ∧
      State.reset.dispatch 0#32 = some ⟨[], .terminate⟩) ∧
    (let s := handled State.reset ⟨[], .resume⟩
     s.number (.imm 5#32) = .ok 5#32 ∧ s.hasHandler 5#32 = true ∧ s.dispatch 5#32 = some ⟨[], .resume⟩) ∧
    (let s := handled State.reset ⟨[], .jump 0x40#32⟩
     s.dispatch 5#32 = some ⟨[], .jump 0x40#32⟩ ∧ s.cfg.intJumpPolicy = .handlerJumpOverrides) ∧
    (let s := handled State.reset ⟨[], .jump 0x40#32⟩ .alwaysAdvance
     s.dispatch 5#32 = some ⟨[], .jump 0x40#32⟩ ∧ s.cfg.intJumpPolicy = .alwaysAdvance) :=
  ⟨⟨rfl, rfl, rfl⟩, ⟨rfl, rfl, rfl⟩, ⟨rfl, rfl⟩, ⟨rfl, rfl⟩⟩

theorem witness_IntTraps :
    (srcLoc edge (.ind (.r 2)) = some (.mem 0xFFD#32) ∧ edge.cfg.memSize < (0xFFD#32).toNat + 4) ∧
    State.reset.number (.imm 1#32) = .ok 1#32 ∧ 1#32 ∉ State.reset.cfg.handlers ∧
    State.reset.cfg.defaultHandler = false := ⟨⟨rfl, by decide⟩, rfl, by decide, rfl⟩

theorem witness_DispatcherChangesOnlyItsShare : State.reset.cfg.memSize ≤ 0x1000 := by decide

theorem witness_reset_invariant : State.reset.Inv :=
  ⟨by decide, by decide, by decide, by decide, by intro t h; cases h⟩

theorem witness_ResetMeetsTheInvariant :
    Config.wf { Config.testVectors with memSize := 2 ^ 32 } = true ∧ Memory.wf [(2 ^ 32 - 1, 0x09#8)] = true ∧
    Memory.below [(2 ^ 32 - 1, 0x09#8)] (2 ^ 32) = true := by decide

theorem witness_EveryDispatcherStateIsReached :
    State.reset.Inv ∧ Memory.wf [(0x100, 0x09#8), (0xFFF, 0xFF#8)] = true ∧
    Memory.below [(0x100, 0x09#8), (0xFFF, 0xFF#8)] State.reset.cfg.memSize = true :=
  ⟨witness_reset_invariant, by decide, by decide⟩

theorem witness_TrapsArePrecise :
    ∃ t tr, (startAt 0xFFF#32 [0x10#8]).status = .running ∧ step (startAt 0xFFF#32 [0x10#8]) = .next t ∧
      t.status = .trapped tr := ⟨_, _, rfl, rfl, rfl⟩

/-- One for each kind of trap an instruction raises. -/
theorem witness_TrapKindsOfEachInstruction :
    State.reset.status = .running ∧
    (∃ t, (Instr.div .byte (.reg .i0) (.imm 0#32)).wellFormed = true ∧
      exec (.div .byte (.reg .i0) (.imm 0#32)) State.reset = .next t ∧
      t.status = .trapped (.arithmeticError 0#32 .div)) ∧
    (∃ t, exec (.int (.imm 1#32)) State.reset = .next t ∧ t.status = .trapped (.unknownInterrupt 0#32 1#32)) ∧
    (∃ t, exec (.int (.mem 0xFFD#32)) State.reset = .next t ∧
      t.status = .trapped (.memoryFault 0#32 0xFFD#32 .double .read)) ∧
    (∃ t, exec (.st .word (.reg .i0) (.mem 0xFFF#32)) State.reset = .next t ∧
      t.status = .trapped (.memoryFault 0#32 0xFFF#32 .word .write)) :=
  ⟨rfl, ⟨_, rfl, rfl, rfl⟩, ⟨_, rfl, rfl⟩, ⟨_, rfl, rfl⟩, ⟨_, rfl, rfl⟩⟩

/-- Each clause has an instruction that completes. -/
theorem witness_FrameOfEachInstruction :
    (∃ t, exec (.sub .word (.mem 0xFFE#32) (.imm 1#32)) State.reset = .next t ∧ t.status = .running) ∧
    (∃ t, exec (.st .double (.reg (.r 0)) (.mem 0xFFC#32)) State.reset = .next t ∧ t.status = .running ∧
      srcLoc State.reset (.mem 0xFFC#32) = some (.mem 0xFFC#32)) ∧
    (∃ t, exec (.st .double (.reg (.r 0)) (.imm 0#32)) State.reset = .next t ∧ srcLoc State.reset (.imm 0#32) = none) ∧
    (∃ t, exec (.cmp .word (.mem 0xFFE#32) (.imm 1#32)) State.reset = .next t ∧ t.status = .running) ∧
    (∃ t, exec (.jle (.mem 0xFFFFFFFF#32)) State.reset = .next t ∧ t.status = .running) ∧
    (∃ t, exec (.int (.imm 5#32)) (handled State.reset ⟨[], .resume⟩) = .next t ∧ t.status = .running) ∧
    (∃ t, exec (.int (.imm 0#32)) State.reset = .next t ∧ t.status = .halted) :=
  ⟨⟨_, rfl, rfl⟩, ⟨_, rfl, rfl, rfl⟩, ⟨_, rfl, rfl⟩, ⟨_, rfl, rfl⟩, ⟨_, rfl, rfl⟩, ⟨_, rfl, rfl⟩, ⟨_, rfl, rfl⟩⟩

theorem witness_CfIsStableBetweenCompares :
    (∃ t, exec (.cmp .byte (.reg .i0) (.reg .i0)) State.reset = .next t ∧ t.cf ≠ State.reset.cf) ∧
    (∃ t, exec (.int (.imm 5#32)) (handled State.reset ⟨[.cf 0x07#8], .resume⟩) = .next t ∧ t.cf ≠ 0#8) :=
  ⟨⟨_, rfl, by decide⟩, ⟨_, rfl, by decide⟩⟩

theorem witness_FloatRegistersAreInert :
    (∀ src, Instr.jmp (.imm 0#32) ≠ .int src) ∧ ∃ t, exec (.jmp (.imm 0#32)) State.reset = .next t :=
  ⟨(by intro src h; cases h), ⟨_, rfl⟩⟩

theorem witness_StepKeepsTheInvariant : State.reset.Inv ∧ ∃ t, step State.reset = .next t :=
  ⟨witness_reset_invariant, ⟨_, rfl⟩⟩

/-- Without and with a dispatcher call. -/
theorem witness_StepKeepsTheParameters :
    (∃ t, step State.reset = .next t ∧ t.calls = 0) ∧
    ∃ t, step (start [] [0x0F#8, 0x00#8, 0x00#8, 0x00#8]) = .next t ∧ t.calls = 1 := ⟨⟨_, rfl, rfl⟩, ⟨_, rfl, rfl⟩⟩

theorem witness_StoppedCoreIsInert :
    (State.reset.setStatus .halted).status ≠ .running ∧
    (State.reset.raise (.unknownInterrupt 0#32 1#32)).status ≠ .running := by decide

theorem witness_ResetIsTheOnlyWayOut :
    (State.reset.setStatus .halted).status ≠ .running ∧
    ∃ t, step (State.reset.setStatus .halted) = .next t := ⟨by decide, ⟨_, rfl⟩⟩

theorem witness_HaltRequestStopsTheCore :
    State.reset.status = .running ∧ (State.reset.raise (.arithmeticError 0#32 .div)).status ≠ .running := by decide

theorem witness_RunIsRepeatedStep :
    ∃ t, runUntilStopped [false] (start [] [0x0F#8, 0x00#8, 0x00#8, 0x00#8]) = .next (.returned t) := ⟨_, rfl⟩

/-- A state to start from, an image that fits to the last byte, and runs that return and that go on. -/
theorem witness_HostCommandsKeepTheInvariant :
    State.reset.Inv ∧ (∃ t, State.reset.loadImage [0x08#8] = some t) ∧
    (∃ t, runUntilStopped [true] State.reset = .next (.returned t)) ∧
    (∃ t, runUntilStopped [] State.reset = .next (.going t)) :=
  ⟨witness_reset_invariant, ⟨_, rfl⟩, ⟨_, rfl⟩, ⟨_, rfl⟩⟩

/-- Before the first step, and after one. -/
theorem witness_HostHaltEndsTheRun :
    State.reset.status = .running ∧ (∃ t, runUntilStopped [] State.reset = .next (.going t)) ∧
    ∃ t, runUntilStopped [false] (start [] [0x08#8, 0x00#8, 0x00#8, 0x00#8]) = .next (.going t) :=
  ⟨rfl, ⟨_, rfl⟩, ⟨_, rfl⟩⟩

/-- At the last seven bytes of memory. -/
theorem witness_JumpToItselfRunsForever :
    let s := startAt 0xFF9#32 (encode (.jmp (.imm 0xFF9#32)))
    s.status = .running ∧ s.ip.toNat + 7 = s.cfg.memSize ∧
      ∀ (k : Nat) (h : k < (encode (.jmp (.imm s.ip))).length),
        s.mem.read (s.ip.toNat + k) = (encode (.jmp (.imm s.ip)))[k] := by decide

/-- An image that fills memory, one byte more, and a boot. -/
theorem witness_LoaderPlacesTheImage :
    let s := startAt 0#32 []
    (s.cfg.loadBase + (List.replicate 0x1000 0x00#8).length ≤ s.cfg.memSize) ∧
    (s.cfg.memSize < s.cfg.loadBase + (List.replicate 0x1001 0x00#8).length) ∧
    ∃ t, State.boot Config.testVectors [] [] [0x08#8, 0x00#8] = some t := by
  refine ⟨?_, ?_, ⟨_, rfl⟩⟩ <;> rw [List.length_replicate] <;> decide

end Sys2Proof.Tests
end

/-! SUPPORT. What each group of instructions leaves alone, whether it completes or traps: the frames that statements
about cf and the registers cite. -/

namespace Sys2Proof.Machine.Proofs

open Sys2Proof.Machine.Laws

variable {s t u : State} {l : Loc} {w : Width} {dst : Dst} {src : Src} {len : Nat}

/-! ## The shapes of a frame -/

/-- The frame of a data instruction that writes at most `l`: cf stays, and the status changes only to Trapped. -/
structure WritesOrTraps (l : Loc) (w : Width) (s t : State) : Prop where
  only : WritesOnly l w s t
  cf : t.cf = s.cf
  status : t.status = s.status ∨ ∃ tr, t.status = .trapped tr

theorem writesOnly_of_writesNothing (l : Loc) (w : Width) (h : WritesNothing s t) : WritesOnly l w s t := by
  have hreg : ∀ k, t.reg k = s.reg k := fun k => congrArg (fun rf => RegFile.get rf k) h.regs
  exact ⟨fun k _ => hreg k, fun k i _ => by rw [hreg k], by rw [h.regs], fun a _ => by rw [h.mem], h.launch⟩

/-- A trap leaves registers and memory alone (rule R201). -/
theorem raise_writesNothing (s : State) (e : Trap) : WritesNothing s (s.raise e) := ⟨rfl, rfl, ⟨rfl, rfl, rfl⟩⟩

theorem raise_writesOrTraps (l : Loc) (w : Width) (s : State) (e : Trap) : WritesOrTraps l w s (s.raise e) :=
  ⟨writesOnly_of_writesNothing l w (raise_writesNothing s e), rfl, .inr ⟨e, rfl⟩⟩

/-- A location written and ip advanced: the end of every data instruction but `cmp`. -/
theorem writeLoc_advance_writesOrTraps {v : BitVec w.bits} (h : s.writeLoc l w v = .ok u) (len : Nat) :
    WritesOrTraps l w s (u.advance len) := by
  obtain ⟨⟨hregs, hupper, hfloats, hbytes, hlaunch⟩, -, hcf, hstatus⟩ := writeLoc_only h
  exact ⟨⟨hregs, hupper, hfloats, hbytes, ⟨hlaunch.cfg, hlaunch.answers, hlaunch.calls⟩⟩, hcf, .inl hstatus⟩

/-! ## The data instructions -/

theorem execLd_writesOrTraps (h : execLd w dst src s = .next t) : WritesOrTraps (dstLoc dst) w s t := by
  obtain ⟨v, u, -, hu, rfl⟩ | ⟨e, -, rfl⟩ | ⟨v, e, -, -, rfl⟩ := execLd_cases h
  · exact writeLoc_advance_writesOrTraps hu _
  · exact raise_writesOrTraps _ _ _ _
  · exact raise_writesOrTraps _ _ _ _

theorem execSt_writesOrTraps (hl : srcLoc s src = some l) (h : execSt w dst src s = .next t) :
    WritesOrTraps l w s t := by
  obtain ⟨v, u, -, hu, rfl⟩ | ⟨e, -, rfl⟩ | ⟨v, e, -, -, rfl⟩ := execSt_cases hl h
  · exact writeLoc_advance_writesOrTraps hu _
  · exact raise_writesOrTraps _ _ _ _
  · exact raise_writesOrTraps _ _ _ _

/-- `st` through an operand that names no location traps (rule R89). -/
theorem execSt_traps (hl : srcLoc s src = none) (h : execSt w dst src s = .next t) : ∃ e, t = s.raise e := by
  cases src with
  | imm v => exact ⟨_, (Host.Outcome.next.inj ((execSt_imm v).symm.trans h)).symm⟩
  | reg k => cases hl
  | mem a => cases hl
  | ind k => cases hl

/-- `st` writes at most one location, whatever its operand. -/
theorem execSt_frame (h : execSt w dst src s = .next t) : ∃ l, WritesOrTraps l w s t := by
  cases hl : srcLoc s src with
  | some l => exact ⟨l, execSt_writesOrTraps hl h⟩
  | none =>
    obtain ⟨e, rfl⟩ := execSt_traps hl h
    exact ⟨dstLoc dst, raise_writesOrTraps _ _ _ _⟩

theorem arith_writesOrTraps {op : BitVec w.bits → BitVec w.bits → Except Trap (BitVec w.bits)}
    (h : arith w dst src len op s = .next t) : WritesOrTraps (dstLoc dst) w s t := by
  obtain ⟨a, b, r, u, -, -, -, hu, rfl⟩ | ⟨e, -, rfl⟩ | ⟨a, e, -, -, rfl⟩ | ⟨a, b, e, -, -, -, rfl⟩ := arith_cases h
  · exact writeLoc_advance_writesOrTraps hu _
  · exact raise_writesOrTraps _ _ _ _
  · exact raise_writesOrTraps _ _ _ _
  · exact raise_writesOrTraps _ _ _ _

theorem execCmp_writesNothing (h : execCmp w dst src s = .next t) : WritesNothing s t := by
  obtain ⟨a, b, -, -, rfl⟩ | ⟨e, -, rfl⟩ | ⟨a, e, -, -, rfl⟩ := execCmp_cases h
  · exact ⟨rfl, rfl, ⟨rfl, rfl, rfl⟩⟩
  · exact raise_writesNothing s e
  · exact raise_writesNothing s e

/-- Every data instruction writes at most one location at its own width. -/
theorem exec_data_writesOnly {mk : Width → Dst → Src → Instr}
    (hmk : mk ∈ [Instr.ld, Instr.st, Instr.cmp, Instr.add, Instr.sub, Instr.mul, Instr.div, Instr.mod])
    (h : exec (mk w dst src) s = .next t) : ∃ l, WritesOnly l w s t := by
  simp only [List.mem_cons, List.not_mem_nil, or_false] at hmk
  obtain rfl | rfl | rfl | rfl | rfl | rfl | rfl | rfl := hmk
  · exact ⟨_, (execLd_writesOrTraps h).only⟩
  · obtain ⟨l, hl⟩ := execSt_frame h
    exact ⟨l, hl.only⟩
  · exact ⟨dstLoc dst, writesOnly_of_writesNothing _ _ (execCmp_writesNothing h)⟩
  all_goals exact ⟨_, (arith_writesOrTraps h).only⟩

/-! ## The jumps -/

/-- A jump, taken or not, changes ip alone (rule R171). -/
theorem jumpIf_frame {taken : Bool} (h : jumpIf taken src len s = .next t) :
    WritesNothing s t ∧ t.cf = s.cf ∧ t.status = s.status := by
  cases taken <;> cases h <;> exact ⟨⟨rfl, rfl, ⟨rfl, rfl, rfl⟩⟩, rfl, rfl⟩

theorem execJmp_frame (h : execJmp src s = .next t) :
    WritesNothing s t ∧ t.cf = s.cf ∧ t.status = s.status := by
  cases h
  exact ⟨⟨rfl, rfl, ⟨rfl, rfl, rfl⟩⟩, rfl, rfl⟩

/-! ## cf -/

/-- Of all instructions only `cmp` and `int` can change cf (rule R32). -/
theorem exec_cf {i : Instr} (hcmp : ∀ w dst src, i ≠ .cmp w dst src) (hint : ∀ src, i ≠ .int src)
    (h : exec i s = .next t) : t.cf = s.cf := by
  cases i with
  | ld w dst src => exact (execLd_writesOrTraps h).cf
  | st w dst src =>
    obtain ⟨l, hl⟩ := execSt_frame h
    exact hl.cf
  | cmp w dst src => exact absurd rfl (hcmp w dst src)
  | add w dst src | sub w dst src | mul w dst src | div w dst src | mod w dst src =>
    exact (arith_writesOrTraps h).cf
  | jmp src => exact (execJmp_frame h).2.1
  | je src | jne src | jg src | jge src | jl src | jle src => exact (jumpIf_frame h).2.1
  | int src => exact absurd rfl (hint src)

/-- A dispatcher's writes change cf only where one of them writes it (rule R192). -/
theorem mem_cf_of_hostWrites_cf_ne {ws : List HostWrite} (h : (s.hostWrites ws).cf ≠ s.cf) :
    ∃ v, HostWrite.cf v ∈ ws := by
  induction ws generalizing s with
  | nil => exact absurd rfl h
  | cons e ws ih =>
    by_cases he : (s.hostWrite e).cf = s.cf
    · obtain ⟨v, hv⟩ := ih (s := s.hostWrite e) (he ▸ h)
      exact ⟨v, List.mem_cons_of_mem e hv⟩
    · cases e with
      | cf v => exact ⟨v, List.mem_cons_self⟩
      | mem a v =>
        refine absurd ?_ he
        simp only [State.hostWrite]
        split <;> rfl
      | r n v | i0 v | f n v => exact absurd rfl he

/-- cf after a dispatcher call is what the dispatcher's writes make of it (rule R191). -/
theorem finishInt_hostWrites_cf (s : State) (ws : List HostWrite) (len : Nat) (o : DispatchOutcome) :
    ((s.noteCall.hostWrites ws).finishInt len o).cf = (s.hostWrites ws).cf := by
  rw [(finishInt_frame _ len o).2.1, hostWrites_noteCall, noteCall_cf]

/-- An `int` that changes cf called a dispatcher, and one of its writes is to cf (rule R32). -/
theorem execInt_cf_ne (h : execInt src s = .next t) (hcf : t.cf ≠ s.cf) :
    ∃ n a v, s.number src = .ok n ∧ s.dispatch n = some a ∧ HostWrite.cf v ∈ a.writes ∧
      t.cf = (s.hostWrites a.writes).cf := by
  obtain ⟨n, a, hn, ha, rfl⟩ | ⟨e, -, rfl⟩ | ⟨n, -, -, rfl⟩ := execInt_cases h
  · have hc := finishInt_hostWrites_cf s a.writes (Instr.int src).length a.outcome
    obtain ⟨v, hv⟩ := mem_cf_of_hostWrites_cf_ne (hc ▸ hcf)
    exact ⟨n, a, v, hn, ha, hv, hc⟩
  · exact absurd (raise_cf s e) hcf
  · exact absurd (raise_cf s _) hcf

/-! ## The statements about registers at width T and about cf (rules R22, R23 and R32 of spec/10_state.md) -/

/-- Settles O14: the masked write bit by bit, and the frame of each data instruction. -/
theorem subWordRegisterAccess : Obligations.SubWordRegisterAccess := by
  refine ⟨?read, ?write, ?otherRegisters, ?dataInstructions⟩
  case read =>
    intro s k w i hi
    simp [State.readReg, hi]
  case write =>
    intro s k w v i
    rw [State.writeReg, setReg_reg_same, maskedWrite_bit]
  case otherRegisters =>
    intro s k j w v hj
    exact setReg_reg_other s k _ hj.symm
  case dataInstructions =>
    intro mk hmk w dst src s t h
    obtain ⟨l, hl⟩ := exec_data_writesOnly hmk h
    exact hl.upperBits

/-- Settles O36: no instruction but `cmp` and `int` changes cf, and `int` only where its dispatcher writes it. -/
theorem cfIsStableBetweenCompares : Obligations.CfIsStableBetweenCompares := by
  intro i s t h hcf
  by_cases hcmp : ∃ w dst src, i = .cmp w dst src
  · exact .inl hcmp
  by_cases hint : ∃ src, i = .int src
  · obtain ⟨src, rfl⟩ := hint
    obtain ⟨n, a, v, hn, ha, hv, hc⟩ := execInt_cf_ne h hcf
    exact .inr ⟨src, n, a, v, rfl, hn, ha, hv, hc⟩
  · push Not at hcmp hint
    exact absurd (exec_cf hcmp hint h) hcf

end Sys2Proof.Machine.Proofs

/-! SUPPORT. Memory reads told by their bytes: a read answers the value whose byte `i` is the byte at `a + i`, so a
read inside what was just written answers that part of it. -/

namespace Sys2Proof.Machine.Proofs

open Sys2Proof.Machine.Laws

variable {s t : State} {a b : Word} {w w' : Width}

/-! ## A value and its bytes -/

/-- A value of width T is its T bytes: bit `j` is bit `j % 8` of byte `j / 8`. -/
theorem eq_of_extract_bytes {u v : BitVec w.bits}
    (h : ∀ i < w.bytes, u.extractLsb' (8 * i) 8 = v.extractLsb' (8 * i) 8) : u = v := by
  apply BitVec.eq_of_getLsbD_eq
  intro j hj
  have hbyte := congrArg (fun x => x.getLsbD (j % 8)) (h (j / 8) (by rw [bits_eq] at hj; omega))
  have hlt : j % 8 < 8 := Nat.mod_lt j (by decide)
  simpa only [BitVec.getLsbD_extractLsb', hlt, Nat.div_add_mod, decide_true, Bool.true_and] using hbyte

/-- A byte of a part that begins at byte `k` is byte `k + i` of the whole. -/
theorem extract_byte_of_extract {n : Nat} (v : BitVec n) (k : Nat) {i : Nat} (hi : i < w.bytes) :
    (v.extractLsb' (8 * k) w.bits).extractLsb' (8 * i) 8 = v.extractLsb' (8 * (k + i)) 8 := by
  apply BitVec.eq_of_getLsbD_eq
  intro j hj
  have hin : 8 * i + j < w.bits := by
    rw [bits_eq]
    omega
  simp only [BitVec.getLsbD_extractLsb', hj, hin, decide_true, Bool.true_and, Nat.mul_add, Nat.add_assoc]

/-! ## Reads -/

/-- A valid read answers the value whose bytes memory holds from `a` upward (rule R53). -/
theorem memRead_eq_of_bytes {v : BitVec w.bits} (hvalid : a.toNat + w.bytes ≤ s.cfg.memSize)
    (hbytes : ∀ i < w.bytes, v.extractLsb' (8 * i) 8 = s.mem.read (a.toNat + i)) : s.memRead a w = .ok v := by
  have hread := memRead_valid hvalid
  rw [hread, eq_of_extract_bytes fun i hi => (memRead_byte hread hi).trans (hbytes i hi).symm]

/-! ## Reads after a write -/

theorem memWrite_cfg {v : BitVec w.bits} (h : s.memWrite a w v = .ok t) : t.cfg = s.cfg := by
  obtain ⟨-, rfl⟩ := memWrite_ok h
  rfl

/-- A read that lies inside the bytes just written answers that part of the value, whatever the two widths
(rule R56). -/
theorem memRead_inside_memWrite {v : BitVec w.bits} (h : s.memWrite a w v = .ok t) {k : Nat}
    (hb : b.toNat = a.toNat + k) (hk : k + w'.bytes ≤ w.bytes) :
    t.memRead b w' = .ok (v.extractLsb' (8 * k) w'.bits) := by
  obtain ⟨hvalid, -⟩ := memWrite_ok h
  refine memRead_eq_of_bytes (by rw [memWrite_cfg h]; omega) fun i hi => ?_
  have hoff : b.toNat + i - a.toNat = k + i := by omega
  rw [extract_byte_of_extract v k hi, read_memWrite h, if_pos (by omega), hoff]

theorem toNat_add_ofNat {m k : Nat} (h : a.toNat + k < m) (hm : m ≤ 2 ^ 32) :
    (a + BitVec.ofNat 32 k).toNat = a.toNat + k := by
  rw [BitVec.toNat_add, BitVec.toNat_ofNat]
  omega

theorem bytes_pos (w : Width) : 0 < w.bytes := by cases w <;> decide

/-- A four-byte write that is valid succeeds, and every read inside it answers its part of the value. -/
theorem memWrite_double_memRead (v : Word) (hvalid : a.toNat + 4 ≤ s.cfg.memSize) (hwf : s.cfg.wf = true) :
    ∃ t, s.memWrite a .double v = .ok t ∧ ∀ (w : Width) (k : Nat), k + w.bytes ≤ 4 →
      t.memRead (a + BitVec.ofNat 32 k) w = .ok (v.extractLsb' (8 * k) w.bits) := by
  have hsize : s.cfg.memSize ≤ 2 ^ 32 := by
    simp only [Config.wf, Bool.and_eq_true, decide_eq_true_eq] at hwf
    exact hwf.2
  have hwrite := memWrite_valid (w := .double) v hvalid
  refine ⟨_, hwrite, fun w k hk => memRead_inside_memWrite hwrite (toNat_add_ofNat ?_ hsize) hk⟩
  have hpos := bytes_pos w
  omega

/-! ## The statements about memory reads and writes (rules R53, R54 and R56 of spec/20_memory.md) -/

/-- Settles O11: the value's bytes are those of memory where the access is valid, and the fault is raised elsewhere. -/
theorem memReadIsLittleEndian : Obligations.MemReadIsLittleEndian := by
  intro s a w
  refine ⟨fun hvalid => ?_, memRead_invalid⟩
  exact ⟨_, memRead_valid hvalid, fun i hi => memRead_byte (memRead_valid hvalid) hi⟩

/-- Settles O12: a write that succeeds changes memory alone, and there only the bytes from `a` upward. -/
theorem memWriteStoresItsBytes : Obligations.MemWriteStoresItsBytes := by
  intro s a w v
  refine ⟨fun hvalid => ?_, memWrite_invalid v⟩
  have hwrite := memWrite_valid v hvalid
  refine ⟨_, hwrite, rfl, fun i hi => ?_, fun c hc => ?_⟩
  · rw [read_memWrite hwrite, if_pos (by omega), Nat.add_sub_cancel_left]
  · rw [read_memWrite hwrite, if_neg (by omega)]

/-- Settles O13: reads inside a four-byte write, any read after any write byte by byte, and the rule's example. -/
theorem mixedWidthReadsSeeTheBytes : Obligations.MixedWidthReadsSeeTheBytes := by
  refine ⟨?inside, ?anyRead, ?ruleExample⟩
  case inside =>
    intro s a v w k hvalid hwf hk
    obtain ⟨t, hwrite, hreads⟩ := memWrite_double_memRead v hvalid hwf
    exact ⟨t, hwrite, hreads w k hk⟩
  case anyRead =>
    intro s t a w w' v b hwrite hvalid
    have hread := memRead_valid (s := t) (memWrite_cfg hwrite ▸ hvalid)
    exact ⟨_, hread, fun i hi => (memRead_byte hread hi).trans (read_memWrite hwrite _)⟩
  case ruleExample =>
    intro s a hvalid hwf
    obtain ⟨t, hwrite, hreads⟩ := memWrite_double_memRead 0xDDCCBBAA#32 hvalid hwf
    have hlow := hreads .word 0 (by decide)
    rw [BitVec.add_zero] at hlow
    exact ⟨t, hwrite, hlow, hreads .byte 1 (by decide), hreads .word 2 (by decide)⟩

end Sys2Proof.Machine.Proofs

/-! SUPPORT. Each format as a whole: the length of an encoding, and the decoder reading a format back from the row of
the opcode map that made it (rules R81–R92 of spec/30_encoding.md). -/

namespace Sys2Proof.Machine.Proofs

open Sys2Proof.Laws Sys2Proof.Machine.Laws

variable {w : Width} {dst : Dst} {src : Src} {op : Nat} {rest : List Byte}

/-! ## Lengths -/

@[simp] theorem encode_length (i : Instr) : (encode i).length = i.length := by
  cases i with
  | ld w dst src | st w dst src | cmp w dst src | add w dst src | sub w dst src | mul w dst src | div w dst src
  | mod w dst src => exact encodeData_length _ w dst src
  | jmp src | je src | jne src | jg src | jge src | jl src | jle src | int src => exact encodeControl_length _ src

theorem dst_size_bounds (dst : Dst) : 1 ≤ dst.size ∧ dst.size ≤ 4 := by
  cases dst <;> simp [Dst.size]

theorem src_size_bounds (src : Src) (w : Width) : 1 ≤ src.size w.bytes ∧ src.size w.bytes ≤ 4 := by
  cases src with
  | imm v => exact ⟨bytes_pos w, bytes_le w⟩
  | reg k | mem a | ind k => simp [Src.size]

theorem src_size_control (src : Src) : src.size 4 = 1 ∨ src.size 4 = 4 := by
  cases src <;> simp [Src.size]

/-- Format D: the opcode, the width and two tags take five bytes, and the payloads the rest. -/
theorem data_length {mk : Width → Dst → Src → Instr}
    (hmk : mk ∈ [Instr.ld, Instr.st, Instr.cmp, Instr.add, Instr.sub, Instr.mul, Instr.div, Instr.mod])
    (w : Width) (dst : Dst) (src : Src) : (mk w dst src).length = 5 + dst.size + src.size w.bytes := by
  simp only [List.mem_cons, List.not_mem_nil, or_false] at hmk
  obtain rfl | rfl | rfl | rfl | rfl | rfl | rfl | rfl := hmk <;> rfl

/-- Format C: the opcode and one tag take three bytes, and the payload the rest. -/
theorem control_length {mk : Src → Instr}
    (hmk : mk ∈ [Instr.jmp, Instr.je, Instr.jne, Instr.jg, Instr.jge, Instr.jl, Instr.jle, Instr.int])
    (src : Src) : (mk src).length = 3 + src.size 4 := by
  simp only [List.mem_cons, List.not_mem_nil, or_false] at hmk
  obtain rfl | rfl | rfl | rfl | rfl | rfl | rfl | rfl := hmk <;> rfl

/-! ## The opcode map -/

/-- The opcode is read back from its two bytes (rule R81). -/
theorem opcode_toNat (h : op < 2 ^ 16) : (BitVec.ofNat 8 (op / 256) ++ BitVec.ofNat 8 op).toNat = op := by
  rw [BitVec.toNat_append, ← Nat.shiftLeft_add_eq_or_of_lt (BitVec.isLt _), Nat.shiftLeft_eq]
  simp only [BitVec.toNat_ofNat]
  omega

theorem lt_of_dataOp {mk : Width → Dst → Src → Instr} (h : dataOp op = some mk) : op < 8 := by
  unfold dataOp at h
  split at h
  on_goal 9 => cases h
  all_goals decide

theorem dataOp_of_controlOp {mk : Src → Instr} (h : controlOp op = some mk) : op < 16 ∧ dataOp op = none := by
  unfold controlOp at h
  split at h
  on_goal 9 => cases h
  all_goals exact ⟨by decide, rfl⟩

/-! ## The formats read back -/

/-- A format D encoding decodes to its row's instruction, whatever follows it. -/
theorem decode_encodeData {mk : Width → Dst → Src → Instr} (hop : dataOp op = some mk)
    (hfits : src.fits w.bits = true) (hst : op = 1 → src.namesLocation = true) :
    decode (encodeData op w dst src ++ rest) = .ok (mk w dst src, rest) := by
  have hlt := lt_of_dataOp hop
  have hsrc : takeOperand (if op = 1 then .stSource else .source) w.bytes (4 + dst.size)
      (encodeSrc w.bytes src ++ rest) = .ok (src, rest) := by
    refine takeOperand_encode ?_ hfits fun hrole => hst ?_
    · split <;> decide
    · by_contra hne
      simp [hne] at hrole
  simp [decode, encodeData, leBytes, opcode_toNat (show op < 2 ^ 16 by omega), hop, hsrc]

/-- A format C encoding decodes to its row's instruction, whatever follows it. -/
theorem decode_encodeControl {mk : Src → Instr} (hop : controlOp op = some mk) :
    decode (encodeControl op src ++ rest) = .ok (mk src, rest) := by
  obtain ⟨hlt, hdata⟩ := dataOp_of_controlOp hop
  have hfits : src.fits (8 * 4) = true := by
    cases src with
    | imm v => exact decide_eq_true v.isLt
    | reg k | mem a | ind k => rfl
  have hsrc : takeOperand .source 4 2 (encodeSrc 4 src ++ rest) = .ok (src, rest) :=
    takeOperand_encode (by decide) hfits (fun h => by cases h)
  simp [decode, encodeControl, leBytes, opcode_toNat (show op < 2 ^ 16 by omega), hdata, hop, hsrc]

/-! ## Operands -/

/-- A jump target reads no memory (rule R98). -/
@[simp] theorem target_setMem (s : State) (m : Memory) (src : Src) : (s.setMem m).target src = s.target src := by
  cases src <;> rfl

/-! ## The statements about the encoding and its operands (rules R92, R97–R99 and R120 of spec/30_encoding.md) -/

/-- Settles O4: an encoding's length is its format's fixed part and its payloads, each of them one to four bytes. -/
theorem instructionLengths : Obligations.InstructionLengths := by
  refine ⟨?data, ?control, ⟨.double, .reg .i0, .reg .i0, rfl⟩, ⟨.double, .mem 0#32, .mem 0#32, rfl⟩⟩
  case data =>
    intro mk hmk w dst src
    have hlen := data_length hmk w dst src
    have hdst := dst_size_bounds dst
    have hsrc := src_size_bounds src w
    refine ⟨?_, (encode_length _).symm, by omega, by omega⟩
    rw [encode_length, hlen]
    cases dst <;> cases src <;> rfl
  case control =>
    intro mk hmk src
    have hlen := control_length hmk src
    have hsrc := src_size_control src
    refine ⟨?_, (encode_length _).symm, by omega⟩
    rw [encode_length, hlen]
    cases src <;> rfl

/-- Settles O1: each list of bytes is a format's encoding, with nothing after it. -/
theorem decodesTheSpecsExamples : Obligations.DecodesTheSpecsExamples :=
  ⟨decode_encodeData (op := 0) (w := .word) (dst := .reg (.r 2)) (src := .mem 0x100#32) rfl rfl (by decide),
    decode_encodeData (op := 2) (w := .double) (dst := .reg (.r 0)) (src := .reg (.r 1)) rfl rfl (by decide),
    decode_encodeData (op := 3) (w := .double) (dst := .reg (.r 0)) (src := .imm 1#32) rfl rfl (by decide),
    decode_encodeControl (op := 8) (src := .imm 0x1F#32) rfl,
    decode_encodeControl (op := 15) (src := .imm 0#32) rfl,
    decode_encodeControl (op := 8) (src := .reg (.r 3)) rfl⟩

/-- Settles O15: each form is an equation of the model's operand resolution; a target looks at registers alone. -/
theorem operandResolution : Obligations.OperandResolution := fun s _ _ _ _ =>
  ⟨rfl, rfl, rfl, rfl, rfl, rfl, rfl, rfl, target_setMem s, fun _ => rfl⟩

end Sys2Proof.Machine.Proofs

/-! SUPPORT. Where a data instruction ends in one write of a location that exists, it completes and the location holds
the value; `ld` and `st` are the two instances whose value is moved unchanged. -/

namespace Sys2Proof.Machine.Proofs

open Sys2Proof.Machine.Laws

variable {s u : State} {l : Loc} {w : Width} {dst : Dst} {src : Src} {v : BitVec w.bits} {i : Instr}

/-! ## One location written -/

/-- A location's value does not depend on ip, which only the fault of a failing read records. -/
theorem readLoc_advance (n : Nat) (h : u.readLoc l w = .ok v) : (u.advance n).readLoc l w = .ok v := by
  cases l with
  | reg k => exact h
  | mem a =>
    have hvalid := (memRead_ok h).1
    exact (memRead_valid (s := u.advance n) hvalid).trans ((memRead_valid hvalid).symm.trans h)

/-- An instruction that ends in a write and the advance past itself completes. -/
theorem completes_of_writeLoc (hu : s.writeLoc l w v = .ok u) (hrun : exec i s = .next (u.advance i.length)) :
    Completes i l w s (u.advance i.length) := by
  obtain ⟨-, hip, hcf, hstatus⟩ := writeLoc_only hu
  refine ⟨hrun, (writeLoc_advance_writesOrTraps hu _).only, ?_, hcf, hstatus⟩
  rw [advance_ip, hip]

/-- An instruction whose write is of a location that exists completes, and the location then holds what was
written. -/
theorem exists_completes_readLoc (hreach : s.reaches l w)
    (hrun : ∀ u, s.writeLoc l w v = .ok u → exec i s = .next (u.advance i.length)) :
    ∃ t, Completes i l w s t ∧ t.readLoc l w = .ok v := by
  obtain ⟨u, hu⟩ := writeLoc_exists v hreach
  exact ⟨_, completes_of_writeLoc hu (hrun u hu), readLoc_advance _ (readLoc_writeLoc hu)⟩

/-! ## `ld` and `st` -/

theorem ld_completes (hv : s.value src w = .ok v) (hreach : s.reaches (dstLoc dst) w) :
    ∃ t, Completes (.ld w dst src) (dstLoc dst) w s t ∧ t.readLoc (dstLoc dst) w = .ok v :=
  exists_completes_readLoc hreach fun u hu => by simp [exec, execLd, hv, hu]

theorem st_completes (hl : srcLoc s src = some l) (hv : s.readLoc (dstLoc dst) w = .ok v)
    (hreach : s.reaches l w) : ∃ t, Completes (.st w dst src) l w s t ∧ t.readLoc l w = .ok v :=
  exists_completes_readLoc hreach fun u hu => by simp [exec, execSt_eq hl, hv, hu]

/-! ## The statements about `ld` and `st` (rules R130, R131 and R132 of spec/40_load_store.md) -/

/-- Settles O16: a readable operand has a value, and `ld` writes it to a destination that exists. -/
theorem ldCopiesItsOperand : Obligations.LdCopiesItsOperand := by
  intro w dst src s hreadable hreach
  obtain ⟨v, hv⟩ := value_exists hreadable
  obtain ⟨t, ht, hread⟩ := ld_completes hv hreach
  exact ⟨v, t, hv, ht, hread⟩

/-- Settles O17: a destination field that exists has a value, and `st` writes it where the source operand points. -/
theorem stStoresTheValue : Obligations.StStoresTheValue := by
  intro w dst src s l hl hdst hreach
  obtain ⟨v, hv⟩ := readLoc_ok_iff.2 hdst
  obtain ⟨t, ht, hread⟩ := st_completes hl hv hreach
  exact ⟨v, t, hv, ht, hread⟩

/-- Settles O19: `st` leaves `rA`'s low bytes at `a`, `ld` moves them to `rB`, and neither changes a bit above 8T.
It holds for `rB = rA` too. -/
theorem nonZeroingLaw : Obligations.NonZeroingLaw := by
  intro w rA rB a s _ hvalid
  have hreach : s.reaches (.mem a) w := fun b hb => by
    cases hb
    exact hvalid
  obtain ⟨t, ht, hstored⟩ := st_completes (dst := .reg rA) (src := .mem a) rfl rfl hreach
  obtain ⟨u, hu, hloaded⟩ := ld_completes (dst := .reg rB) (src := .mem a) hstored fun b hb => by cases hb
  have hmoved : u.readReg rB w = s.readReg rA w := Except.ok.inj hloaded
  obtain ⟨readReg_bit, -⟩ := subWordRegisterAccess
  refine ⟨t, u, ht.runs, hu.runs, fun i hi => ?low, fun i hi => ?high⟩
  case low => rw [← readReg_bit u rB w i hi, hmoved, readReg_bit s rA w i hi]
  case high => rw [hu.only.upperBits rB i hi, ht.only.upperBits rB i hi]

end Sys2Proof.Machine.Proofs

/-! SUPPORT. The flag byte of a comparison: it names the relation of the two readings, and two readings are equal
exactly when the operands are. -/

namespace Sys2Proof.Machine.Proofs

open Sys2Proof.Machine.Laws

variable {s : State} {w : Width} {dst : Dst} {src : Src}

/-! ## The flags of a comparison -/

/-- One relation holds between the readings, and the flags are the bit that stands for it (rule R142). -/
theorem compareFlags_cases (x y : Int) :
    (x > y ∧ compareFlags x y = 4#8) ∨ (x = y ∧ compareFlags x y = 2#8) ∨ (x < y ∧ compareFlags x y = 1#8) := by
  unfold compareFlags
  obtain hlt | heq | hgt := lt_trichotomy x y
  · exact .inr (.inr ⟨hlt, by rw [if_neg (by omega), if_neg (by omega)]⟩)
  · exact .inr (.inl ⟨heq, by rw [if_neg (by omega), if_pos heq]⟩)
  · exact .inl ⟨hgt, if_pos hgt⟩

/-- Each flag byte stands for one relation of the readings. -/
theorem compareFlags_iff (x y : Int) :
    (compareFlags x y = 4#8 ↔ x > y) ∧ (compareFlags x y = 2#8 ↔ x = y) ∧ (compareFlags x y = 1#8 ↔ x < y) := by
  obtain ⟨hxy, hcf⟩ | ⟨hxy, hcf⟩ | ⟨hxy, hcf⟩ := compareFlags_cases x y <;> rw [hcf]
  · exact ⟨iff_of_true rfl hxy, iff_of_false (by decide) (by omega), iff_of_false (by decide) (by omega)⟩
  · exact ⟨iff_of_false (by decide) (by omega), iff_of_true rfl hxy, iff_of_false (by decide) (by omega)⟩
  · exact ⟨iff_of_false (by decide) (by omega), iff_of_false (by decide) (by omega), iff_of_true rfl hxy⟩

theorem compareFlags_oneBit (x y : Int) :
    compareFlags x y = 4#8 ∨ compareFlags x y = 2#8 ∨ compareFlags x y = 1#8 :=
  (compareFlags_cases x y).imp And.right (Or.imp And.right And.right)

/-- cf's mask loses nothing of the flags. -/
theorem compareFlags_masked (x y : Int) : compareFlags x y &&& 0x07#8 = compareFlags x y := by
  obtain hcf | hcf | hcf := compareFlags_oneBit x y <;> rw [hcf] <;> rfl

/-! ## The readings compared -/

/-- Under either ordering two operands are equal exactly when their readings are. -/
theorem reading_inj (sg : Signedness) {n : Nat} {a b : BitVec n} : reading sg a = reading sg b ↔ a = b := by
  cases sg with
  | unsigned => exact Int.ofNat_inj.trans BitVec.toNat_inj
  | signed => exact BitVec.toInt_inj

/-! ## `cmp` -/

/-- `cmp` with both operands read: cf alone is set, and ip is past the instruction. -/
theorem execCmp_ok {a b : BitVec w.bits} (ha : s.readLoc (dstLoc dst) w = .ok a) (hb : s.value src w = .ok b) :
    execCmp w dst src s = .next ((s.setCf (compareFlags (reading s.cfg.signedness a)
      (reading s.cfg.signedness b))).advance (Instr.cmp w dst src).length) := by
  simp [execCmp, ha, hb]

/-! ## The statement about `cmp` (rules R140, R141 and R142 of spec/41_compare.md) -/

/-- Settles O20: readable operands have values, and cf becomes the flag of their readings' relation. -/
theorem cmpSetsTheRelationsFlag : Obligations.CmpSetsTheRelationsFlag := by
  intro w dst src s hreach hreadable
  obtain ⟨a, ha⟩ := readLoc_ok_iff.2 hreach
  obtain ⟨b, hb⟩ := value_exists hreadable
  have hrun := execCmp_ok ha hb
  refine ⟨a, b, _, ha, hb, hrun, execCmp_writesNothing hrun, rfl, rfl, ?_⟩
  rw [advance_cf, setCf_cf, compareFlags_masked]
  obtain ⟨hgreater, hequal, hless⟩ := compareFlags_iff (reading s.cfg.signedness a) (reading s.cfg.signedness b)
  refine ⟨compareFlags_oneBit _ _, hequal.trans (reading_inj _), fun hsg => ?unsigned, fun hsg => ?signed⟩
  case unsigned =>
    rw [hsg] at hgreater hless ⊢
    exact ⟨hgreater.trans Int.ofNat_lt, hless.trans Int.ofNat_lt⟩
  case signed =>
    rw [hsg] at hgreater hless ⊢
    exact ⟨hgreater, hless⟩

end Sys2Proof.Machine.Proofs

/-! SUPPORT. `div` and `mod` by zero: the divisor is tested before SIGNEDNESS is looked at, so both settings trap. -/

namespace Sys2Proof.Machine.Proofs

open Sys2Proof.Machine.Laws

/-! ## The operations on a zero divisor -/

theorem opDiv_zero (cfg : Config) (ip : Word) {n : Nat} (a : BitVec n) :
    opDiv cfg ip a 0 = .error (.arithmeticError ip .div) := if_pos BitVec.toNat_zero

theorem opMod_zero (cfg : Config) (ip : Word) {n : Nat} (a : BitVec n) :
    opMod cfg ip a 0 = .error (.arithmeticError ip .mod) := if_pos BitVec.toNat_zero

/-! ## The statement about zero divisors (rule R157 of spec/42_arithmetic.md) -/

/-- Settles O26: the dividend is read, the divisor is the zero given, and the operation traps before any write. -/
theorem zeroDivisorTraps : Obligations.ZeroDivisorTraps := by
  intro w dst src s hreach hzero
  obtain ⟨a, ha⟩ := readLoc_ok_iff.2 hreach
  exact ⟨arith_error ha hzero (opDiv_zero s.cfg s.ip a), arith_error ha hzero (opMod_zero s.cfg s.ip a)⟩

end Sys2Proof.Machine.Proofs

/-! SUPPORT. Decoding cut short: on a proper prefix of an encoding the decoder stops at the first byte that is missing,
and where memory ends inside an instruction that byte is the first past the top (rules R60, R102 and R108). -/

namespace Sys2Proof.Machine.Proofs

open Sys2Proof.Laws Sys2Proof.Machine.Laws

variable {s : State} {i : Instr} {w : Width} {dst : Dst} {src : Src} {op k : Nat}

/-! ## A prefix of an encoding -/

/-- Format D: past the three bytes of opcode and width, the cut falls in the destination, which then stops the decoding,
or in the source. -/
theorem decode_take_encodeData {mk : Width → Dst → Src → Instr} (hop : dataOp op = some mk)
    (hst : op = 1 → src.namesLocation = true) (hk : k < (encodeData op w dst src).length) :
    decode ((encodeData op w dst src).take k) = .error (.short k) := by
  have hopcode := opcode_toNat (show op < 2 ^ 16 from (lt_of_dataOp hop).trans (by decide))
  match k, hk with
  | 0, _ => rfl
  | 1, _ => rfl
  | 2, _ => simp [decode, encodeData, leBytes, hopcode, hop]
  | k + 3, hk =>
    have htake : (encodeData op w dst src).take (k + 3) = BitVec.ofNat 8 op :: BitVec.ofNat 8 (op / 256) ::
        encodeWidth w :: (encodeDst dst ++ encodeSrc w.bytes src).take k := by
      simp [encodeData, leBytes]
    rw [htake]
    by_cases hdst : k < (encodeDst dst).length
    · have hshort : takeDst 3 ((encodeDst dst).take k) = .error (.short (3 + k)) := takeDst_short dst hdst
      rw [List.take_append_of_le_length hdst.le]
      simp [decode, hopcode, hop, hshort, Nat.add_comm]
    · obtain ⟨m, rfl⟩ := Nat.exists_eq_add_of_le (Nat.le_of_not_lt hdst)
      have hshort : takeOperand (if op = 1 then .stSource else .source) w.bytes (4 + dst.size)
          ((encodeSrc w.bytes src).take m) = .error (.short (4 + dst.size + m)) := by
        refine takeOperand_short ?_ (fun hrole => hst ?_) ?_
        · split <;> decide
        · by_contra hne
          simp [hne] at hrole
        · rw [encodeData_length, encodeDst_length] at hk
          rw [encodeSrc_length]
          omega
      rw [List.take_length_add_append]
      simp [decode, hopcode, hop, hshort]
      omega

/-- Format C: past the two bytes of the opcode, the cut falls in the operand. -/
theorem decode_take_encodeControl {mk : Src → Instr} (hop : controlOp op = some mk)
    (hk : k < (encodeControl op src).length) :
    decode ((encodeControl op src).take k) = .error (.short k) := by
  obtain ⟨hlt, hdata⟩ := dataOp_of_controlOp hop
  have hopcode := opcode_toNat (show op < 2 ^ 16 from hlt.trans (by decide))
  match k, hk with
  | 0, _ => rfl
  | 1, _ => rfl
  | k + 2, hk =>
    have hsrc : takeOperand .source 4 2 ((encodeSrc 4 src).take k) = .error (.short (2 + k)) :=
      takeOperand_short (by decide) (fun h => by cases h) (by
        rw [encodeControl_length] at hk
        rw [encodeSrc_length]
        omega)
    simp [decode, encodeControl, leBytes, hopcode, hdata, hop, hsrc, Nat.add_comm]

/-- No proper prefix of an encoding decodes, whatever the instruction (rule R102). -/
theorem decode_take_encode (hwf : i.wellFormed = true) (hk : k < (encode i).length) :
    decode ((encode i).take k) = .error (.short k) := by
  cases i with
  | st w dst src => exact decode_take_encodeData rfl (fun _ => (Bool.and_eq_true_iff.1 hwf).1) hk
  | ld w dst src | cmp w dst src | add w dst src | sub w dst src | mul w dst src | div w dst src | mod w dst src =>
    exact decode_take_encodeData rfl (fun h => by cases h) hk
  | jmp src | je src | jne src | jg src | jge src | jl src | jle src | int src =>
    exact decode_take_encodeControl rfl hk

/-! ## The fetch at the top of memory -/

theorem length_le_maxLength (i : Instr) : i.length ≤ maxLength := by
  have data (w : Width) (dst : Dst) (src : Src) : 5 + dst.size + src.size w.bytes ≤ 13 := by
    have hdst := dst_size_bounds dst
    have hsrc := src_size_bounds src w
    omega
  have control (src : Src) : 3 + src.size 4 ≤ 13 := by
    have hsrc := src_size_control src
    omega
  cases i with
  | ld w dst src | st w dst src | cmp w dst src | add w dst src | sub w dst src | mul w dst src | div w dst src
  | mod w dst src => exact data w dst src
  | jmp src | je src | jne src | jg src | jge src | jl src | jle src | int src => exact control src

/-- Where memory ends `k` bytes into an instruction, the fetch unit gives those `k` bytes. -/
theorem fetchBytes_eq_take_encode (hk : k < (encode i).length) (htop : s.ip.toNat + k = s.cfg.memSize)
    (hbytes : ∀ (j : Nat) (h : j < (encode i).length), j < k → s.mem.read (s.ip.toNat + j) = (encode i)[j]) :
    s.fetchBytes = (encode i).take k := by
  have hlen := length_le_maxLength i
  rw [encode_length] at hk
  have hfetch : s.fetchable = k := by
    rw [State.fetchable]
    omega
  rw [State.fetchBytes, hfetch]
  apply List.ext_getElem (by simp; omega)
  intro j hj _
  rw [bytes_length] at hj
  rw [bytes_getElem, List.getElem_take, hbytes j (by simp; omega) hj]

/-- With ip outside memory the fetch unit gives nothing. -/
theorem fetchBytes_outside (h : s.cfg.memSize ≤ s.ip.toNat) : s.fetchBytes = [] := by
  rw [State.fetchBytes, State.fetchable, Nat.sub_eq_zero_of_le h]
  rfl

/-- A decoding that runs out of bytes ends the step with the fetch's MemoryFault and changes nothing else. -/
theorem step_of_decode_short (hrun : s.status = .running) (hdec : decode s.fetchBytes = .error (.short k)) :
    step s = .next { s with status := .trapped (.memoryFault s.ip (s.ip + BitVec.ofNat 32 k) .byte .fetch) } := by
  simp [step, hrun, State.fetchDecode, hdec, State.decodeTrap, State.raise, State.setStatus]

end Sys2Proof.Machine.Proofs

/-! SUPPORT. The seven jumps as one: each goes to its target or past itself as its condition says, and changes ip
alone. -/

namespace Sys2Proof.Machine.Proofs

open Sys2Proof.Machine.Laws

variable {s t : State} {src : Src}

/-! ## What a jump does -/

theorem jumpIf_eq (taken : Bool) (src : Src) (len : Nat) (s : State) :
    jumpIf taken src len s =
      .next { s with ip := if taken then s.target src else s.ip + BitVec.ofNat 32 len } := by
  cases taken <;> rfl

/-- Each of the seven jumps changes ip alone (rule R171). -/
theorem exec_jump_frame {mk : Src → Instr}
    (hmk : mk ∈ [Instr.jmp, Instr.je, Instr.jne, Instr.jg, Instr.jge, Instr.jl, Instr.jle])
    (h : exec (mk src) s = .next t) : WritesNothing s t ∧ t.cf = s.cf ∧ t.status = s.status := by
  simp only [List.mem_cons, List.not_mem_nil, or_false] at hmk
  obtain rfl | rfl | rfl | rfl | rfl | rfl | rfl := hmk
  · exact execJmp_frame h
  all_goals exact jumpIf_frame h

/-- Each condition depends on cf[2:0] alone, and its eight values are its column of the table (rules R173–R178). -/
theorem condition_columns (cf : Byte) :
    [false, false, true, true, false, false, true, true][cf.toNat % 8]? = some (condJe cf) ∧
    [true, true, false, false, true, true, false, false][cf.toNat % 8]? = some (condJne cf) ∧
    [false, false, false, false, true, true, true, true][cf.toNat % 8]? = some (condJg cf) ∧
    [false, false, true, true, true, true, true, true][cf.toNat % 8]? = some (condJge cf) ∧
    [false, true, false, true, false, true, false, true][cf.toNat % 8]? = some (condJl cf) ∧
    [false, true, true, true, false, true, true, true][cf.toNat % 8]? = some (condJle cf) := by
  revert cf
  decide

/-! ## The statements about jumps (rules R172 and R179 of spec/43_control_transfer.md) -/

/-- Settles O27: each row of the table is a jump with its condition's column, and `jmp` is always taken. -/
theorem goNoGoTable : Obligations.GoNoGoTable := by
  intro row hrow s src
  obtain ⟨hje, hjne, hjg, hjge, hjl, hjle⟩ := condition_columns s.cf
  simp only [List.mem_cons, List.not_mem_nil, or_false] at hrow
  obtain rfl | rfl | rfl | rfl | rfl | rfl | rfl := hrow
  · exact ⟨true, List.getElem?_replicate_of_lt (n := 8) (Nat.mod_lt _ (by decide)), rfl⟩
  · exact ⟨_, hje, jumpIf_eq _ src _ s⟩
  · exact ⟨_, hjne, jumpIf_eq _ src _ s⟩
  · exact ⟨_, hjg, jumpIf_eq _ src _ s⟩
  · exact ⟨_, hjge, jumpIf_eq _ src _ s⟩
  · exact ⟨_, hjl, jumpIf_eq _ src _ s⟩
  · exact ⟨_, hjle, jumpIf_eq _ src _ s⟩

/-- Settles O9: a jump keeps the core Running whatever its target, and a fetch at or across the top of memory runs out
of bytes there. -/
theorem jumpOutsideMemoryFaultsAtTheNextFetch : Obligations.JumpOutsideMemoryFaultsAtTheNextFetch := by
  refine ⟨?jump, ?acrossTheTop⟩
  case jump =>
    intro mk hmk s t src hrun h hout
    obtain ⟨hkeeps, -, hstatus⟩ := exec_jump_frame hmk h
    have ht : t.status = .running := hstatus.trans hrun
    have hdec : decode t.fetchBytes = .error (.short 0) := by
      rw [fetchBytes_outside (hkeeps.launch.cfg ▸ hout)]
      rfl
    have hstep := step_of_decode_short ht hdec
    rw [BitVec.add_zero] at hstep
    exact ⟨ht, hstep⟩
  case acrossTheTop =>
    intro s i k hrun hwf hk htop hbytes
    have hdec : decode s.fetchBytes = .error (.short k) := by
      rw [fetchBytes_eq_take_encode hk htop hbytes, decode_take_encode hwf hk]
    have haddr : s.ip + BitVec.ofNat 32 k = BitVec.ofNat 32 s.cfg.memSize := by
      rw [← htop, BitVec.ofNat_add, BitVec.ofNat_toNat, BitVec.setWidth_eq]
    rw [step_of_decode_short hrun hdec, haddr]

end Sys2Proof.Machine.Proofs

/-! SUPPORT. The two ways a step of a Running core ends: with no trap, or with the status alone changed, to a trap that
records the ip. -/

namespace Sys2Proof.Machine.Proofs

open Sys2Proof.Machine.Laws

variable {s t : State} {l : Loc} {w : Width} {dst : Dst} {src : Src} {len : Nat} {e : Trap}

/-! ## Every trap records the ip of its instruction (rule R202) -/

theorem readLoc_error_ip (h : s.readLoc l w = .error e) : e.ip = s.ip := by
  obtain ⟨a, -, -, rfl⟩ := readLoc_error h
  rfl

theorem writeLoc_error_ip {v : BitVec w.bits} (h : s.writeLoc l w v = .error e) : e.ip = s.ip := by
  obtain ⟨a, -, -, rfl⟩ := writeLoc_error h
  rfl

theorem value_error_ip (h : s.value src w = .error e) : e.ip = s.ip := by
  obtain ⟨a, -, -, rfl⟩ := value_error h
  rfl

theorem opDiv_error_ip {a b : BitVec w.bits} (h : opDiv s.cfg s.ip a b = .error e) : e.ip = s.ip := by
  rw [opDiv_error h]
  rfl

theorem opMod_error_ip {a b : BitVec w.bits} (h : opMod s.cfg s.ip a b = .error e) : e.ip = s.ip := by
  rw [opMod_error h]
  rfl

theorem decodeTrap_ip (s : State) (r : Reject) : (s.decodeTrap r).ip = s.ip := by
  cases r <;> rfl

theorem fetchDecode_error_ip (h : s.fetchDecode = .error e) : e.ip = s.ip := by
  unfold State.fetchDecode at h
  cases hdec : decode s.fetchBytes with
  | ok r =>
    rw [hdec] at h
    cases h
  | error r =>
    rw [hdec] at h
    rw [← Except.error.inj h]
    exact decodeTrap_ip s r

/-! ## How each instruction ends -/

/-- The status stays or becomes Halted, or a trap at the state's own ip is raised with nothing else done. -/
inductive KeepsOrRaises (s t : State) : Prop where
  | keeps (hstatus : t.status = s.status ∨ t.status = .halted)
  | raises (e : Trap) (hip : e.ip = s.ip) (ht : t = s.raise e)

theorem writeLoc_advance_keeps {u : State} {v : BitVec w.bits} (h : s.writeLoc l w v = .ok u) (len : Nat) :
    KeepsOrRaises s (u.advance len) := by
  obtain ⟨-, -, -, hstatus⟩ := writeLoc_only h
  exact .keeps (.inl hstatus)

theorem execLd_keepsOrRaises (h : execLd w dst src s = .next t) : KeepsOrRaises s t := by
  obtain ⟨v, u, -, hu, rfl⟩ | ⟨e, he, ht⟩ | ⟨v, e, -, he, ht⟩ := execLd_cases h
  · exact writeLoc_advance_keeps hu _
  · exact .raises e (value_error_ip he) ht
  · exact .raises e (writeLoc_error_ip he) ht

theorem execSt_keepsOrRaises (h : execSt w dst src s = .next t) : KeepsOrRaises s t := by
  cases hl : srcLoc s src with
  | some l =>
    obtain ⟨v, u, -, hu, rfl⟩ | ⟨e, he, ht⟩ | ⟨v, e, -, he, ht⟩ := execSt_cases hl h
    · exact writeLoc_advance_keeps hu _
    · exact .raises e (readLoc_error_ip he) ht
    · exact .raises e (writeLoc_error_ip he) ht
  | none =>
    cases src with
    | imm v => exact .raises _ rfl (Host.Outcome.next.inj ((execSt_imm v).symm.trans h)).symm
    | reg k | mem a | ind k => cases hl

theorem execCmp_keepsOrRaises (h : execCmp w dst src s = .next t) : KeepsOrRaises s t := by
  obtain ⟨a, b, -, -, rfl⟩ | ⟨e, he, ht⟩ | ⟨a, e, -, he, ht⟩ := execCmp_cases h
  · exact .keeps (.inl rfl)
  · exact .raises e (readLoc_error_ip he) ht
  · exact .raises e (value_error_ip he) ht

/-- The arithmetic family, for an operation whose own traps record the ip. -/
theorem arith_keepsOrRaises {op : BitVec w.bits → BitVec w.bits → Except Trap (BitVec w.bits)}
    (hop : ∀ a b e, op a b = .error e → e.ip = s.ip) (h : arith w dst src len op s = .next t) :
    KeepsOrRaises s t := by
  obtain ⟨a, b, r, u, -, -, -, hu, rfl⟩ | ⟨e, he, ht⟩ | ⟨a, e, -, he, ht⟩ | ⟨a, b, e, -, -, he, ht⟩ := arith_cases h
  · exact writeLoc_advance_keeps hu _
  · exact .raises e (readLoc_error_ip he) ht
  · exact .raises e (value_error_ip he) ht
  · exact .raises e (hop a b e he) ht

theorem execInt_keepsOrRaises (h : execInt src s = .next t) : KeepsOrRaises s t := by
  obtain ⟨n, a, -, -, rfl⟩ | ⟨e, he, ht⟩ | ⟨n, -, -, ht⟩ := execInt_cases h
  · obtain ⟨-, hwrites, -⟩ := hostWrites_frame s.noteCall a.writes
    exact .keeps ((finishInt_status _ _ _).imp_left fun hfinish => hfinish.trans hwrites)
  · exact .raises e (value_error_ip he) ht
  · exact .raises _ rfl ht

theorem exec_keepsOrRaises {i : Instr} (h : exec i s = .next t) : KeepsOrRaises s t := by
  cases i with
  | ld w dst src => exact execLd_keepsOrRaises h
  | st w dst src => exact execSt_keepsOrRaises h
  | cmp w dst src => exact execCmp_keepsOrRaises h
  | add w dst src | sub w dst src | mul w dst src => exact arith_keepsOrRaises (fun _ _ _ he => by cases he) h
  | div w dst src => exact arith_keepsOrRaises (fun _ _ _ he => opDiv_error_ip he) h
  | mod w dst src => exact arith_keepsOrRaises (fun _ _ _ he => opMod_error_ip he) h
  | jmp src => exact .keeps (.inl (execJmp_frame h).2.2)
  | je src | jne src | jg src | jge src | jl src | jle src => exact .keeps (.inl (jumpIf_frame h).2.2)
  | int src => exact execInt_keepsOrRaises h

/-! ## How a step ends -/

/-- A step of a Running core runs the instruction it decodes, or raises the trap of its decoding (rules R105, R108). -/
theorem step_running_cases (hrun : s.status = .running) (h : step s = .next t) :
    (∃ i, s.fetchDecode = .ok i ∧ exec i s = .next t) ∨ ∃ e, s.fetchDecode = .error e ∧ t = s.raise e := by
  unfold step at h
  rw [hrun] at h
  cases hdec : s.fetchDecode with
  | ok i =>
    rw [hdec] at h
    exact .inl ⟨i, rfl, h⟩
  | error e =>
    rw [hdec] at h
    exact .inr ⟨e, rfl, (Host.Outcome.next.inj h).symm⟩

theorem step_keepsOrRaises (hrun : s.status = .running) (h : step s = .next t) : KeepsOrRaises s t := by
  obtain ⟨i, -, hexec⟩ | ⟨e, he, ht⟩ := step_running_cases hrun h
  · exact exec_keepsOrRaises hexec
  · exact .raises e (fetchDecode_error_ip he) ht

/-! ## The statement about traps (rules R201 and R108) -/

/-- Settles O33: a step that completes leaves the core Running or Halted, so one that ends Trapped raised its trap and
did nothing else. -/
theorem trapsArePrecise : Obligations.TrapsArePrecise := by
  intro s t tr hrun h htr
  obtain ⟨hrunning | hhalted⟩ | ⟨e, hip, rfl⟩ := step_keepsOrRaises hrun h
  · rw [hrunning, hrun] at htr
    cases htr
  · rw [hhalted] at htr
    cases htr
  · obtain rfl : e = tr := Status.trapped.inj htr
    exact ⟨rfl, hip⟩

end Sys2Proof.Machine.Proofs

/-! SUPPORT. The step of a core that is not Running, and the statement about it. -/

namespace Sys2Proof.Machine.Proofs

variable {s : State}

/-! ## What a step of a stopped core does -/

theorem step_halted (h : s.status = .halted) : step s = .next s := by
  rw [step, h]

theorem step_trapped {e : Trap} (h : s.status = .trapped e) : step s = .next s := by
  rw [step, h]

/-! ## The statement about stopped cores (rule R237) -/

/-- Settles O42: a core that is not Running is Halted or Trapped, and a step answers either as it stands. -/
theorem stoppedCoreIsInert : Obligations.StoppedCoreIsInert := by
  intro s hstopped
  cases hstatus : s.status with
  | running => exact absurd hstatus hstopped
  | halted => exact step_halted hstatus
  | trapped e => exact step_trapped hstatus

end Sys2Proof.Machine.Proofs

/-! SUPPORT. The decoder and the encoder as one relation: a row of the opcode map fixes an instruction's encoding and
its well-formedness, and whatever the decoder accepts is a format's encoding (rules R81–R91, R100, R102). -/

namespace Sys2Proof.Machine.Proofs

open Sys2Proof.Laws Sys2Proof.Machine.Laws

variable {i : Instr} {w : Width} {dst : Dst} {src : Src} {op : Nat} {bs rest : List Byte}

/-! ## Encoding, then decoding -/

/-- A well-formed instruction is read back from its encoding, whatever follows it. -/
theorem decode_encode (hwf : i.wellFormed = true) : decode (encode i ++ rest) = .ok (i, rest) := by
  cases i with
  | st w dst src =>
    obtain ⟨hlocation, hfits⟩ := Bool.and_eq_true_iff.1 hwf
    exact decode_encodeData rfl hfits fun _ => hlocation
  | ld w dst src | cmp w dst src | add w dst src | sub w dst src | mul w dst src | div w dst src | mod w dst src =>
    exact decode_encodeData rfl hwf fun h => by cases h
  | jmp src | je src | jne src | jg src | jge src | jl src | jle src | int src => exact decode_encodeControl rfl

/-! ## The rows of the opcode map -/

/-- A format D row is encoded with its opcode, and `st` alone restricts its source's form (rules R83, R89, R90). -/
theorem dataOp_row {mk : Width → Dst → Src → Instr} (hop : dataOp op = some mk) (hfits : src.fits w.bits = true)
    (hst : op = 1 → src.namesLocation = true) :
    (mk w dst src).wellFormed = true ∧ encode (mk w dst src) = encodeData op w dst src := by
  unfold dataOp at hop
  split at hop
  case h_9 => cases hop
  case h_2 =>
    cases hop
    exact ⟨Bool.and_eq_true_iff.2 ⟨hst rfl, hfits⟩, rfl⟩
  all_goals
    cases hop
    exact ⟨hfits, rfl⟩

/-- A format C row is encoded with its opcode, and every operand is well formed (rules R84, R90). -/
theorem controlOp_row {mk : Src → Instr} (hop : controlOp op = some mk) (src : Src) :
    (mk src).wellFormed = true ∧ encode (mk src) = encodeControl op src := by
  unfold controlOp at hop
  split at hop
  case h_9 => cases hop
  all_goals
    cases hop
    exact ⟨rfl, rfl⟩

/-- The opcode's two bytes are the encoding of the number they hold (rule R81). -/
theorem leBytes_opcode (b0 b1 : Byte) : leBytes 2 (b1 ++ b0).toNat = [b0, b1] := by
  have hvalue : (b1 ++ b0).toNat = leValue [b0, b1] := by
    have hb0 := b0.isLt
    rw [BitVec.toNat_append, ← Nat.shiftLeft_add_eq_or_of_lt hb0, Nat.shiftLeft_eq]
    simp only [leValue]
    omega
  rw [hvalue]
  exact leBytes_leValue [b0, b1]

/-! ## Decoding, then encoding -/

/-- What the decoder accepts is well formed, and the bytes it consumed are the instruction's encoding. -/
theorem decode_ok (h : decode bs = .ok (i, rest)) : i.wellFormed = true ∧ bs = encode i ++ rest := by
  obtain ⟨⟨b0, bs0⟩, hb0, h⟩ := rbind_ok.1 h
  obtain ⟨⟨b1, bs1⟩, hb1, h⟩ := rbind_ok.1 h
  have hopcode : bs = leBytes 2 (b1 ++ b0).toNat ++ bs1 := by
    rw [leBytes_opcode, takeByte_ok hb0, takeByte_ok hb1]
    rfl
  simp only at h
  cases hdata : dataOp (b1 ++ b0).toNat with
  | some mk =>
    simp only [hdata] at h
    obtain ⟨⟨wb, bs2⟩, hwb, h⟩ := rbind_ok.1 h
    cases hw : decodeWidth wb with
    | none => simp [hw] at h
    | some w =>
      simp only [hw] at h
      obtain ⟨⟨dst, bs3⟩, hdst, h⟩ := rbind_ok.1 h
      obtain ⟨⟨src, bs4⟩, hsrc, h⟩ := rbind_ok.1 h
      cases h
      obtain ⟨(hsrcBytes : bs3 = _), hfits, hst⟩ := takeOperand_ok (by split <;> decide) (bytes_le w) hsrc
      obtain ⟨hwf, henc⟩ := dataOp_row (dst := dst) hdata hfits fun hone => hst (if_pos hone)
      refine ⟨hwf, ?_⟩
      rw [henc, hopcode, takeByte_ok hwb, decodeWidth_some hw, takeDst_ok hdst, hsrcBytes]
      simp [encodeData]
  | none =>
    simp only [hdata] at h
    cases hcontrol : controlOp (b1 ++ b0).toNat with
    | none => simp [hcontrol] at h
    | some mk =>
      simp only [hcontrol] at h
      obtain ⟨⟨src, bs2⟩, hsrc, h⟩ := rbind_ok.1 h
      cases h
      obtain ⟨hsrcBytes, -, -⟩ := takeOperand_ok (by decide) (le_refl 4) hsrc
      obtain ⟨hwf, henc⟩ := controlOp_row hcontrol src
      refine ⟨hwf, ?_⟩
      rw [henc, hopcode, hsrcBytes]
      simp [encodeControl]

/-! ## The statements about the round trip (rules R81–R91, R100 and R102 of spec/30_encoding.md) -/

/-- Settles O2: every well-formed instruction is a row of the opcode map applied to operands that are read back. -/
theorem decodeOfEncodeIsTheInstruction : Obligations.DecodeOfEncodeIsTheInstruction := fun _ _ hwf =>
  decode_encode hwf

/-- Settles O3: each field that the decoder accepts is the encoding of what it reads, so the whole is. -/
theorem decodedBytesAreTheEncoding : Obligations.DecodedBytesAreTheEncoding := fun _ _ _ h => decode_ok h

end Sys2Proof.Machine.Proofs

/-! SUPPORT. `int` where its dispatcher answers: the state the call leaves, field by field, and ip and the status for
each outcome (rules R190–R195 of spec/44_interrupt.md). -/

namespace Sys2Proof.Machine.Proofs

open Sys2Proof.Machine.Laws

variable {s t : State} {src : Src} {n : Word} {a : DispatchAnswer}

theorem state_eq {s t : State} (hregs : s.regs = t.regs) (hip : s.ip = t.ip) (hcf : s.cf = t.cf)
    (hstatus : s.status = t.status) (hmem : s.mem = t.mem) (hlaunch : SameLaunch t s) : s = t := by
  obtain ⟨hcfg, hanswers, hcalls⟩ := hlaunch
  cases s
  cases t
  simp_all

/-! ## The state a call leaves -/

/-- The state after a dispatcher call that answers `a`, as `int` with `len` bytes finishes it (rule R191). -/
def afterCall (s : State) (len : Nat) (a : DispatchAnswer) : State :=
  (s.noteCall.hostWrites a.writes).finishInt len a.outcome

theorem execInt_answered (hn : s.number src = .ok n) (ha : s.dispatch n = some a) :
    exec (.int src) s = .next (afterCall s (Instr.int src).length a) := by
  simp [exec, execInt, hn, ha, afterCall]

/-- Registers, cf and memory are the dispatcher's; the answer is used up and the call counted. -/
theorem afterCall_fields (s : State) (len : Nat) (a : DispatchAnswer) :
    (afterCall s len a).regs = (s.hostWrites a.writes).regs ∧ (afterCall s len a).cf = (s.hostWrites a.writes).cf ∧
    (afterCall s len a).mem = (s.hostWrites a.writes).mem ∧ (afterCall s len a).cfg = s.cfg ∧
    (afterCall s len a).answers = s.answers.tail ∧ (afterCall s len a).calls = s.calls + 1 := by
  have hcalled : afterCall s len a = (s.hostWrites a.writes).noteCall.finishInt len a.outcome := by
    rw [afterCall, hostWrites_noteCall]
  obtain ⟨hregs, hcf, hmem, hfinish⟩ := finishInt_frame (s.hostWrites a.writes).noteCall len a.outcome
  obtain ⟨-, -, hwrites⟩ := hostWrites_frame s a.writes
  rw [hcalled, hregs, hcf, hmem, hfinish.cfg, hfinish.answers, hfinish.calls, noteCall_cfg, noteCall_answers,
    noteCall_calls, hwrites.cfg, hwrites.answers, hwrites.calls]
  exact ⟨rfl, rfl, rfl, rfl, rfl, rfl⟩

theorem afterCall_eq (s : State) (len : Nat) (a : DispatchAnswer) :
    afterCall s len a = { s.hostWrites a.writes with
      ip := (afterCall s len a).ip, status := (afterCall s len a).status,
      answers := s.answers.tail, calls := s.calls + 1 } := by
  obtain ⟨hregs, hcf, hmem, hcfg, hanswers, hcalls⟩ := afterCall_fields s len a
  obtain ⟨-, -, hwrites⟩ := hostWrites_frame s a.writes
  exact state_eq hregs rfl hcf rfl hmem ⟨hcfg.trans hwrites.cfg.symm, hanswers, hcalls⟩

/-- The dispatcher's writes leave ip, the status and the policy to `int` itself. -/
theorem called_frame (s : State) (ws : List HostWrite) :
    (s.noteCall.hostWrites ws).ip = s.ip ∧ (s.noteCall.hostWrites ws).status = s.status ∧
      (s.noteCall.hostWrites ws).cfg = s.cfg := by
  obtain ⟨hip, hstatus, hlaunch⟩ := hostWrites_frame s.noteCall ws
  exact ⟨hip, hstatus, hlaunch.cfg⟩

theorem afterCall_resume (len : Nat) (ho : a.outcome = .resume) :
    (afterCall s len a).ip = s.ip + BitVec.ofNat 32 len ∧ (afterCall s len a).status = s.status := by
  obtain ⟨hip, hstatus, -⟩ := called_frame s a.writes
  rw [afterCall, ho, State.finishInt, advance_ip, advance_status]
  exact ⟨by rw [hip], hstatus⟩

/-- A jump request sets ip, or ip advances, as INT_JUMP_POLICY says (rule R194). -/
theorem afterCall_jump (len : Nat) {target : Word} (ho : a.outcome = .jump target) :
    (afterCall s len a).status = s.status ∧
    (s.cfg.intJumpPolicy = .handlerJumpOverrides → (afterCall s len a).ip = target) ∧
    (s.cfg.intJumpPolicy = .alwaysAdvance → (afterCall s len a).ip = s.ip + BitVec.ofNat 32 len) := by
  obtain ⟨hip, hstatus, hcfg⟩ := called_frame s a.writes
  rw [afterCall, ho, State.finishInt, hcfg]
  cases s.cfg.intJumpPolicy with
  | handlerJumpOverrides => exact ⟨hstatus, fun _ => rfl, nofun⟩
  | alwaysAdvance => exact ⟨hstatus, nofun, fun _ => congrArg (· + BitVec.ofNat 32 len) hip⟩

theorem afterCall_terminate (len : Nat) (ho : a.outcome = .terminate) :
    (afterCall s len a).ip = s.ip + BitVec.ofNat 32 len ∧ (afterCall s len a).status = .halted := by
  obtain ⟨hip, -, -⟩ := called_frame s a.writes
  rw [afterCall, ho, State.finishInt, setStatus_ip, advance_ip, setStatus_status]
  exact ⟨by rw [hip], rfl⟩

/-- ip past a call: the advance, or the target that the dispatcher asked for (rules R27, R194). -/
theorem afterCall_ip (s : State) (len : Nat) (a : DispatchAnswer) :
    (afterCall s len a).ip = s.ip + BitVec.ofNat 32 len ∨ a.outcome = .jump (afterCall s len a).ip := by
  cases ho : a.outcome with
  | resume => exact .inl (afterCall_resume len ho).1
  | terminate => exact .inl (afterCall_terminate len ho).1
  | jump target =>
    obtain ⟨-, hoverrides, hadvances⟩ := afterCall_jump (s := s) len ho
    cases hp : s.cfg.intJumpPolicy with
    | handlerJumpOverrides => exact .inr (by rw [hoverrides hp])
    | alwaysAdvance => exact .inl (hadvances hp)

/-- Only Terminate changes the status (rule R195). -/
theorem afterCall_status (s : State) (len : Nat) (a : DispatchAnswer) :
    (afterCall s len a).status = if a.outcome = .terminate then .halted else s.status := by
  cases ho : a.outcome with
  | resume => exact (afterCall_resume len ho).2
  | terminate => exact (afterCall_terminate len ho).2
  | jump target => exact (afterCall_jump len ho).1

/-! ## The statement about outcomes (rules R190–R195 of spec/44_interrupt.md) -/

/-- Settles O29: a registered handler answers, and its writes, finished as its outcome says, are the state after it. -/
theorem intFollowsTheOutcome : Obligations.IntFollowsTheOutcome := by
  intro src s n hn hhandler
  obtain ⟨a, ha⟩ := dispatch_some hhandler
  obtain ⟨hregs, hcf, hmem, hcfg, hanswers, hcalls⟩ := afterCall_fields s (Instr.int src).length a
  refine ⟨a, _, ha, execInt_answered hn ha, hregs, hcf, hmem, hcfg, hanswers, hcalls, afterCall_resume _,
    fun target => afterCall_jump _, fun ho => ?_⟩
  obtain ⟨hip, hstatus⟩ := afterCall_terminate (s := s) (Instr.int src).length ho
  exact ⟨hip, hstatus, step_halted hstatus⟩

end Sys2Proof.Machine.Proofs

/-! SUPPORT. The ends of an instruction, all of them: what any meaning can answer, and which traps it can raise. The
statements about every instruction cite this one inversion of `exec`. -/

namespace Sys2Proof.Machine.Proofs

open Sys2Proof.Machine.Laws

variable {s t : State} {i : Instr} {w : Width} {dst : Dst} {src : Src} {e : Trap}

/-! ## The ends -/

/-- The format D instructions with these operands (rule R81). -/
def dataInstrs (w : Width) (dst : Dst) (src : Src) : List Instr :=
  [.ld w dst src, .st w dst src, .cmp w dst src, .add w dst src, .sub w dst src, .mul w dst src, .div w dst src,
    .mod w dst src]

/-- The jumps with this operand (rule R81). -/
def jumpInstrs (src : Src) : List Instr := [.jmp src, .je src, .jne src, .jg src, .jge src, .jl src, .jle src]

/-- The trap `e` is one that the instruction `i` can raise in `s` (rule R200); the last row is of a term that no
encoding holds. -/
inductive Raises (s : State) : Instr → Trap → Prop where
  | read {i : Instr} {w : Width} {dst : Dst} {src : Src} {a : Word} (hi : i ∈ dataInstrs w dst src)
      (hout : s.cfg.memSize < a.toNat + w.bytes) : Raises s i (.memoryFault s.ip a w .read)
  | write {i : Instr} {w : Width} {dst : Dst} {src : Src} {a : Word} (hi : i ∈ [Instr.ld w dst src, .st w dst src])
      (hout : s.cfg.memSize < a.toNat + w.bytes) : Raises s i (.memoryFault s.ip a w .write)
  | div (w : Width) (dst : Dst) (src : Src) : Raises s (.div w dst src) (.arithmeticError s.ip .div)
  | mod (w : Width) (dst : Dst) (src : Src) : Raises s (.mod w dst src) (.arithmeticError s.ip .mod)
  | number {src : Src} {a : Word} (hout : s.cfg.memSize < a.toNat + 4) :
      Raises s (.int src) (.memoryFault s.ip a .double .read)
  | noHandler {src : Src} {n : Word} (hn : s.number src = .ok n) : Raises s (.int src) (.unknownInterrupt s.ip n)
  | stImmediate (w : Width) (dst : Dst) (v : Word) :
      Raises s (.st w dst (.imm v)) (.decodeError s.ip (4 + dst.size) .stag 0x0002#16)

/-- How `i` ends, from `s` in `t`: a location written or cf set and the advance; a jump taken or not; the dispatcher's
answer; a trap. -/
inductive Ends (i : Instr) (s t : State) : Prop where
  | writes (l : Loc) (w : Width) (v : BitVec w.bits) (u : State) (hu : s.writeLoc l w v = .ok u)
      (ht : t = u.advance i.length)
  | compares (v : Byte) (ht : t = (s.setCf v).advance i.length)
  | jumps (src : Src) (hi : i ∈ jumpInstrs src) (ht : t = s.setIp (s.target src))
  | passes (ht : t = s.advance i.length)
  | dispatches (src : Src) (n : Word) (a : DispatchAnswer) (hi : i = .int src) (hn : s.number src = .ok n)
      (ha : s.dispatch n = some a) (ht : t = afterCall s i.length a)
  | traps (e : Trap) (he : Raises s i e) (ht : t = s.raise e)

/-! ## The traps of operand accesses -/

theorem raises_of_readLoc_error (hi : i ∈ dataInstrs w dst src) {l : Loc} (h : s.readLoc l w = .error e) :
    Raises s i e := by
  obtain ⟨a, -, hout, rfl⟩ := readLoc_error h
  exact .read hi hout

theorem raises_of_value_error (hi : i ∈ dataInstrs w dst src) (h : s.value src w = .error e) : Raises s i e := by
  obtain ⟨a, -, hout, rfl⟩ := value_error h
  exact .read hi hout

theorem raises_of_writeLoc_error (hi : i ∈ [Instr.ld w dst src, .st w dst src]) {l : Loc} {v : BitVec w.bits}
    (h : s.writeLoc l w v = .error e) : Raises s i e := by
  obtain ⟨a, -, hout, rfl⟩ := writeLoc_error h
  exact .write hi hout

/-! ## Each meaning -/

theorem execLd_ends (h : execLd w dst src s = .next t) : Ends (.ld w dst src) s t := by
  have hi : Instr.ld w dst src ∈ dataInstrs w dst src := by simp [dataInstrs]
  have hwrites : Instr.ld w dst src ∈ [Instr.ld w dst src, .st w dst src] := by simp
  obtain ⟨v, u, -, hu, ht⟩ | ⟨e, he, ht⟩ | ⟨v, e, -, he, ht⟩ := execLd_cases h
  · exact .writes _ w v u hu ht
  · exact .traps e (raises_of_value_error hi he) ht
  · exact .traps e (raises_of_writeLoc_error hwrites he) ht

theorem execSt_ends (h : execSt w dst src s = .next t) : Ends (.st w dst src) s t := by
  have hi : Instr.st w dst src ∈ dataInstrs w dst src := by simp [dataInstrs]
  have hwrites : Instr.st w dst src ∈ [Instr.ld w dst src, .st w dst src] := by simp
  cases hl : srcLoc s src with
  | some l =>
    obtain ⟨v, u, -, hu, ht⟩ | ⟨e, he, ht⟩ | ⟨v, e, -, he, ht⟩ := execSt_cases hl h
    · exact .writes l w v u hu ht
    · exact .traps e (raises_of_readLoc_error hi he) ht
    · exact .traps e (raises_of_writeLoc_error hwrites he) ht
  | none =>
    cases src with
    | imm v => exact .traps _ (.stImmediate w dst v) (Host.Outcome.next.inj ((execSt_imm v).symm.trans h)).symm
    | reg k | mem a | ind k => cases hl

theorem execCmp_ends (h : execCmp w dst src s = .next t) : Ends (.cmp w dst src) s t := by
  have hi : Instr.cmp w dst src ∈ dataInstrs w dst src := by simp [dataInstrs]
  obtain ⟨a, b, -, -, ht⟩ | ⟨e, he, ht⟩ | ⟨a, e, -, he, ht⟩ := execCmp_cases h
  · exact .compares _ ht
  · exact .traps e (raises_of_readLoc_error hi he) ht
  · exact .traps e (raises_of_value_error hi he) ht

/-- The arithmetic family, for an operation whose own traps are the instruction's. -/
theorem arith_ends {op : BitVec w.bits → BitVec w.bits → Except Trap (BitVec w.bits)} (hi : i ∈ dataInstrs w dst src)
    (hop : ∀ a b e, op a b = .error e → Raises s i e) (h : arith w dst src i.length op s = .next t) : Ends i s t := by
  obtain ⟨a, b, r, u, -, -, -, hu, ht⟩ | ⟨e, he, ht⟩ | ⟨a, e, -, he, ht⟩ | ⟨a, b, e, -, -, he, ht⟩ := arith_cases h
  · exact .writes _ w r u hu ht
  · exact .traps e (raises_of_readLoc_error hi he) ht
  · exact .traps e (raises_of_value_error hi he) ht
  · exact .traps e (hop a b e he) ht

theorem jumpIf_ends {taken : Bool} (hi : i ∈ jumpInstrs src) (h : jumpIf taken src i.length s = .next t) :
    Ends i s t := by
  cases taken with
  | true => exact .jumps src hi (Host.Outcome.next.inj h).symm
  | false => exact .passes (Host.Outcome.next.inj h).symm

theorem execInt_ends (h : execInt src s = .next t) : Ends (.int src) s t := by
  obtain ⟨n, a, hn, ha, ht⟩ | ⟨e, he, ht⟩ | ⟨n, hn, -, ht⟩ := execInt_cases h
  · exact .dispatches src n a rfl hn ha ht
  · obtain ⟨a, -, hout, rfl⟩ := value_error he
    exact .traps _ (.number hout) ht
  · exact .traps _ (.noHandler hn) ht

/-- Every answer of `exec` is one of the ends. -/
theorem exec_ends (h : exec i s = .next t) : Ends i s t := by
  cases i with
  | ld w dst src => exact execLd_ends h
  | st w dst src => exact execSt_ends h
  | cmp w dst src => exact execCmp_ends h
  | add w dst src | sub w dst src | mul w dst src =>
    exact arith_ends (by simp [dataInstrs]) (fun _ _ _ he => by cases he) h
  | div w dst src => exact arith_ends (by simp [dataInstrs]) (fun _ _ _ he => opDiv_error he ▸ .div w dst src) h
  | mod w dst src => exact arith_ends (by simp [dataInstrs]) (fun _ _ _ he => opMod_error he ▸ .mod w dst src) h
  | jmp src => exact .jumps src (by simp [jumpInstrs]) (Host.Outcome.next.inj h).symm
  | je src | jne src | jg src | jge src | jl src | jle src => exact jumpIf_ends (by simp [jumpInstrs]) h
  | int src => exact execInt_ends h

end Sys2Proof.Machine.Proofs

/-! SUPPORT. The invariant along execution: its clauses apart from the trap record hold after every instruction, and a
core that is Running or Halted has no record to speak of. -/

namespace Sys2Proof.Machine.Proofs

open Sys2Proof.Machine.Laws

variable {s t u : State} {l : Loc} {w : Width}

/-! ## The invariant without its trap clause -/

/-- The clauses of the invariant that do not speak of the status. -/
structure Shape (s : State) : Prop where
  memSize : s.cfg.wf = true
  memCanonical : s.mem.wf = true
  memBelow : s.mem.below s.cfg.memSize = true
  cfUpper : s.cf &&& 0xF8#8 = 0#8

theorem shape_of_inv (h : s.Inv) : Shape s := ⟨h.memSize, h.memCanonical, h.memBelow, h.cfUpper⟩

/-- A state that is not Trapped meets the invariant by its shape alone. -/
theorem inv_of_shape (h : Shape s) (hstatus : s.status = .running ∨ s.status = .halted) : s.Inv where
  memSize := h.memSize
  memCanonical := h.memCanonical
  memBelow := h.memBelow
  cfUpper := h.cfUpper
  trapIp e he := by
    obtain hrun | hhalted := hstatus
    · cases hrun.symm.trans he
    · cases hhalted.symm.trans he

/-- A trap that records the state's ip keeps the invariant (rules R201, R203). -/
theorem inv_raise (h : Shape s) {e : Trap} (hip : e.ip = s.ip) : (s.raise e).Inv where
  memSize := h.memSize
  memCanonical := h.memCanonical
  memBelow := h.memBelow
  cfUpper := h.cfUpper
  trapIp e' he' := by
    obtain rfl : e = e' := Status.trapped.inj he'
    exact hip

/-- The shape looks at the parameters, memory and cf only. -/
theorem shape_congr (h : Shape s) (hcfg : t.cfg = s.cfg) (hmem : t.mem = s.mem) (hcf : t.cf = s.cf) : Shape t where
  memSize := hcfg ▸ h.memSize
  memCanonical := hmem ▸ h.memCanonical
  memBelow := by
    rw [hcfg, hmem]
    exact h.memBelow
  cfUpper := hcf ▸ h.cfUpper

theorem shape_raise (h : Shape s) (e : Trap) : Shape (s.raise e) := shape_congr h rfl rfl rfl

/-- Writing cf stores bits 2:0 only (rule R30). -/
theorem shape_setCf (h : Shape s) (v : Byte) : Shape (s.setCf v) where
  memSize := h.memSize
  memCanonical := h.memCanonical
  memBelow := h.memBelow
  cfUpper := by
    rw [setCf_cf, BitVec.and_assoc]
    exact BitVec.and_zero

/-- A new memory that is canonical and inside MEM_SIZE keeps the shape. -/
theorem shape_setMem (h : Shape s) {m : Memory} (hwf : m.wf = true) (hbelow : m.below s.cfg.memSize = true) :
    Shape (s.setMem m) :=
  ⟨h.memSize, hwf, hbelow, h.cfUpper⟩

/-! ## Every instruction keeps the shape -/

/-- A location written and ip advanced: the end of every data instruction but `cmp`. -/
theorem shape_writeLoc_advance (h : Shape s) {v : BitVec w.bits} (hu : s.writeLoc l w v = .ok u) (len : Nat) :
    Shape (u.advance len) := by
  obtain ⟨honly, -, hcf, -⟩ := writeLoc_only hu
  obtain ⟨hwf, hbelow⟩ := writeLoc_mem hu h.memCanonical h.memBelow
  have hcfg := honly.launch.cfg
  exact ⟨hcfg ▸ h.memSize, hwf, hcfg ▸ hbelow, hcf ▸ h.cfUpper⟩

/-- A dispatcher's writes keep the shape, whatever they are (rules R30, R50, R192). -/
theorem shape_hostWrites (h : Shape s) (ws : List HostWrite) : Shape (s.hostWrites ws) := by
  obtain ⟨-, -, hlaunch⟩ := hostWrites_frame s ws
  obtain ⟨hwf, hbelow, hcf⟩ := hostWrites_keep s ws h.memCanonical h.memBelow h.cfUpper
  exact ⟨hlaunch.cfg ▸ h.memSize, hwf, hlaunch.cfg ▸ hbelow, hcf⟩

theorem exec_shape {i : Instr} (hs : Shape s) (h : exec i s = .next t) : Shape t := by
  cases exec_ends h with
  | writes l w v u hu ht => exact ht ▸ shape_writeLoc_advance hs hu _
  | compares v ht =>
    subst ht
    exact shape_congr (shape_setCf hs v) rfl rfl rfl
  | jumps src hi ht =>
    subst ht
    exact shape_congr hs rfl rfl rfl
  | passes ht =>
    subst ht
    exact shape_congr hs rfl rfl rfl
  | dispatches src n a hi hn ha ht =>
    subst ht
    obtain ⟨-, hcf, hmem, hcfg, -, -⟩ := afterCall_fields s i.length a
    obtain ⟨-, -, hwrites⟩ := hostWrites_frame s a.writes
    exact shape_congr (shape_hostWrites hs a.writes) (hcfg.trans hwrites.cfg.symm) hmem hcf
  | traps e he ht => exact ht ▸ shape_raise hs e

/-! ## Every step keeps the invariant -/

/-- A step of a Running core keeps the shape, and ends with no trap or with one that records its ip. -/
theorem step_running_inv (hs : Shape s) (hrun : s.status = .running) (h : step s = .next t) : t.Inv := by
  have hshape : Shape t := by
    obtain ⟨i, -, hexec⟩ | ⟨e, -, rfl⟩ := step_running_cases hrun h
    · exact exec_shape hs hexec
    · exact shape_raise hs e
  obtain hstatus | ⟨e, hip, rfl⟩ := step_keepsOrRaises hrun h
  · exact inv_of_shape hshape (hstatus.imp_left fun hkept => hkept.trans hrun)
  · exact inv_raise hs hip

theorem step_inv (hinv : s.Inv) (h : step s = .next t) : t.Inv := by
  by_cases hrun : s.status = .running
  · exact step_running_inv (shape_of_inv hinv) hrun h
  · obtain rfl : s = t := Host.Outcome.next.inj ((stoppedCoreIsInert s hrun).symm.trans h)
    exact hinv

/-! ## The statements about the invariant (rules R8, R30, R38, R50, R203) -/

/-- Settles O39: each instruction keeps the clauses about memory, cf and the parameters, and each trap records the ip it
was raised at. -/
theorem stepKeepsTheInvariant : Obligations.StepKeepsTheInvariant := fun _ _ hinv h => step_inv hinv h

theorem construct_inv {cfg : Config} {m : Memory} (as : List DispatchAnswer) (hcfg : cfg.wf = true) (hwf : m.wf = true)
    (hbelow : m.below cfg.memSize = true) : (State.construct cfg m as).Inv :=
  inv_of_shape ⟨hcfg, hwf, hbelow, BitVec.zero_and⟩ (.inl rfl)

/-- Settles O40: a constructed core is Running with cf 0, so the launch's memory and parameters are all that counts. -/
theorem resetMeetsTheInvariant : Obligations.ResetMeetsTheInvariant :=
  ⟨construct_inv _ (by decide) rfl rfl, fun _ _ as hcfg hwf hbelow => construct_inv as hcfg hwf hbelow⟩

end Sys2Proof.Machine.Proofs

/-! SUPPORT. Illegal fields: each part of the decoder names the field it refuses, and behind the fields that it reads
the decoder gives that refusal back (rules R100–R102 of spec/30_encoding.md). -/

namespace Sys2Proof.Machine.Proofs

open Sys2Proof.Laws Sys2Proof.Machine.Laws

variable {w : Width} {dst : Dst} {op off n : Nat} {b tag : Byte} {role : Role} {bs rest : List Byte} {e : Reject}

/-! ## The parts -/

theorem takeReg_illegal (hcode : 10 ≤ b.toNat) (hi0 : b.toNat ≠ 0x14) :
    takeReg off (b :: rest) = .error (.illegal off .register (b.setWidth 16)) := by
  simp [takeReg, decodeReg_none hcode hi0]

theorem takeDst_illegalTag (htag : 1 < tag.toNat) :
    takeDst off (tag :: rest) = .error (.illegal off .dtag (tag.setWidth 16)) := by
  simp [takeDst, Role.tagLegal, Role.tagField, Nat.not_le_of_lt htag]

theorem takeDst_illegalReg (hcode : 10 ≤ b.toNat) (hi0 : b.toNat ≠ 0x14) :
    takeDst off (0x00#8 :: b :: rest) = .error (.illegal (off + 1) .register (b.setWidth 16)) := by
  simp [takeDst, Role.tagLegal, takeReg_illegal hcode hi0]

theorem takeOperand_illegalTag (hrole : role ≠ .dest) (htag : role.tagLegal tag = false) :
    takeOperand role n off (tag :: rest) = .error (.illegal off .stag (tag.setWidth 16)) := by
  cases role with
  | dest => exact absurd rfl hrole
  | source | stSource => simp [takeOperand, htag, Role.tagField]

/-- The two tags whose payload is a register code, in a place where both are legal. -/
theorem takeOperand_illegalReg (hrole : role ≠ .dest) (htag : tag = 0x00#8 ∨ tag = 0x03#8) (hcode : 10 ≤ b.toNat)
    (hi0 : b.toNat ≠ 0x14) :
    takeOperand role n off (tag :: b :: rest) = .error (.illegal (off + 1) .register (b.setWidth 16)) := by
  have hlegal : role.tagLegal tag = true := by
    cases role with
    | dest => exact absurd rfl hrole
    | source | stSource => obtain rfl | rfl := htag <;> rfl
  obtain rfl | rfl := htag <;> simp [takeOperand, hlegal, takeReg_illegal hcode hi0]

/-! ## The opcode map, row by row -/

theorem dataOp_le_seven (h : op ≤ 7) : ∃ mk, dataOp op = some mk := by
  interval_cases op <;> exact ⟨_, rfl⟩

theorem controlOp_le_fifteen (hlow : 8 ≤ op) (hhigh : op ≤ 0xF) : ∃ mk, controlOp op = some mk := by
  interval_cases op <;> exact ⟨_, rfl⟩

theorem no_row_above_fifteen (h : 0xF < op) : dataOp op = none ∧ controlOp op = none := by
  constructor
  · cases hdata : dataOp op with
    | none => rfl
    | some mk =>
      have := lt_of_dataOp hdata
      omega
  · cases hcontrol : controlOp op with
    | none => rfl
    | some mk =>
      have := (dataOp_of_controlOp hcontrol).1
      omega

/-! ## The decoder behind legal fields -/

/-- The place a format D source stands in (rule R89). -/
theorem sourceRole_ne_dest (op : Nat) : (if op = 1 then Role.stSource else .source) ≠ .dest := by
  split <;> decide

theorem decode_illegalOpcode (b0 b1 : Byte) (h : 0xF < (b1 ++ b0).toNat) :
    decode (b0 :: b1 :: rest) = .error (.illegal 0 .opcode (b1 ++ b0)) := by
  obtain ⟨hdata, hcontrol⟩ := no_row_above_fifteen h
  simp [decode, hdata, hcontrol]

theorem decode_illegalWidth (hop : op ≤ 7) (hwidth : 2 < b.toNat) :
    decode (leBytes 2 op ++ b :: rest) = .error (.illegal 2 .width (b.setWidth 16)) := by
  obtain ⟨mk, hmk⟩ := dataOp_le_seven hop
  simp [decode, leBytes, opcode_toNat (show op < 2 ^ 16 by omega), hmk, decodeWidth_none hwidth]

/-- A format D instruction whose destination is refused. -/
theorem decode_dst_error (hop : op ≤ 7) (h : takeDst 3 bs = .error e) :
    decode (leBytes 2 op ++ encodeWidth w :: bs) = .error e := by
  obtain ⟨mk, hmk⟩ := dataOp_le_seven hop
  simp [decode, leBytes, opcode_toNat (show op < 2 ^ 16 by omega), hmk, h]

/-- A format D instruction whose source is refused. -/
theorem decode_src_error (hop : op ≤ 7)
    (h : takeOperand (if op = 1 then .stSource else .source) w.bytes (4 + dst.size) bs = .error e) :
    decode (leBytes 2 op ++ encodeWidth w :: (encodeDst dst ++ bs)) = .error e := by
  obtain ⟨mk, hmk⟩ := dataOp_le_seven hop
  simp [decode, leBytes, opcode_toNat (show op < 2 ^ 16 by omega), hmk, h]

/-- A format C instruction whose operand is refused. -/
theorem decode_control_error (hlow : 8 ≤ op) (hhigh : op ≤ 0xF) (h : takeOperand .source 4 2 bs = .error e) :
    decode (leBytes 2 op ++ bs) = .error e := by
  obtain ⟨mk, hmk⟩ := controlOp_le_fifteen hlow hhigh
  obtain ⟨-, hdata⟩ := dataOp_of_controlOp hmk
  simp [decode, leBytes, opcode_toNat (show op < 2 ^ 16 by omega), hdata, hmk, h]

/-! ## The statement about illegal fields (rules R100–R102 of spec/30_encoding.md) -/

/-- Settles O5: a field is reached when those before it are legal, and the decoder's part that reads it refuses it. -/
theorem illegalFieldsAreRejected : Obligations.IllegalFieldsAreRejected := by
  refine ⟨?opcode, ?width, ?dtag, ?dstRegister, ?stag, ?srcRegister, ?controlTag, ?controlRegister⟩
  case opcode => exact fun b0 b1 rest h => decode_illegalOpcode b0 b1 h
  case width => exact fun op b rest hop h => decode_illegalWidth hop h
  case dtag => exact fun op w b rest hop h => decode_dst_error hop (takeDst_illegalTag h)
  case dstRegister =>
    exact fun op w b rest hop hcode hi0 => decode_dst_error hop (takeDst_illegalReg hcode hi0)
  case stag =>
    intro op w dst b rest hop h
    have htag : (if op = 1 then Role.stSource else .source).tagLegal b = false := by
      obtain hb | ⟨rfl, hb⟩ := h
      · split <;> simp [Role.tagLegal, Nat.not_le_of_lt hb]
      · simp [Role.tagLegal, hb]
    rw [encodeDst_length, ← Nat.add_assoc]
    exact decode_src_error hop (takeOperand_illegalTag (sourceRole_ne_dest op) htag)
  case srcRegister =>
    intro op w dst tag b rest hop htag hcode hi0
    have hoff : 4 + (encodeDst dst).length = 4 + dst.size + 1 := by
      rw [encodeDst_length]
      omega
    rw [hoff]
    exact decode_src_error hop (takeOperand_illegalReg (sourceRole_ne_dest op) htag hcode hi0)
  case controlTag =>
    intro op b rest hlow hhigh hb
    have htag : Role.source.tagLegal b = false := decide_eq_false (Nat.not_le_of_lt hb)
    exact decode_control_error hlow hhigh (takeOperand_illegalTag (by decide) htag)
  case controlRegister =>
    exact fun op tag b rest hlow hhigh htag hcode hi0 =>
      decode_control_error hlow hhigh (takeOperand_illegalReg (by decide) htag hcode hi0)

end Sys2Proof.Machine.Proofs

/-! SUPPORT. The step as fetch, decode and execute: what the fetch unit gives, and what a step does with it (rules R102,
R105 and R108 of spec/30_encoding.md). -/

namespace Sys2Proof.Machine.Proofs

open Sys2Proof.Laws Sys2Proof.Machine.Laws

variable {s : State} {i : Instr} {n off k : Nat} {bs rest : List Byte} {e : Reject}

/-! ## Decoding that runs out of bytes -/

theorem rbind_error {α β : Type} {x : Except Reject α} {f : α → Except Reject β} :
    (x >>= f) = .error e ↔ x = .error e ∨ ∃ a, x = .ok a ∧ f a = .error e := by
  cases x <;> simp [bind, Except.bind]

theorem takeByte_short (h : takeByte off bs = .error (.short k)) : k = off + bs.length ∧ bs.length < 1 := by
  cases bs with
  | nil =>
    cases h
    exact ⟨rfl, Nat.zero_lt_one⟩
  | cons b bs => cases h

theorem takeByte_length {b : Byte} (h : takeByte off bs = .ok (b, rest)) : bs.length = rest.length + 1 := by
  rw [takeByte_ok h, List.length_cons]

/-- A little-endian field stops only where its bytes are too few. -/
theorem takeLE_short_bound (h : takeLE n off bs = .error (.short k)) : k = off + bs.length ∧ bs.length < n := by
  induction n generalizing off bs with
  | zero => cases h
  | succ n ih =>
    obtain h | ⟨⟨b, cs⟩, hb, h⟩ := rbind_error.1 h
    · have := takeByte_short h
      omega
    · have hlen := takeByte_length hb
      obtain h | ⟨⟨v, ds⟩, -, h⟩ := rbind_error.1 h
      · have := ih h
        omega
      · cases h

theorem takeReg_short_bound (h : takeReg off bs = .error (.short k)) : k = off + bs.length ∧ bs.length < 1 := by
  obtain h | ⟨⟨b, cs⟩, -, h⟩ := rbind_error.1 h
  · exact takeByte_short h
  · cases hreg : decodeReg b <;> simp [hreg] at h

/-- A destination stops only where fewer bytes than the longest one are left. -/
theorem takeDst_short_bound (h : takeDst off bs = .error (.short k)) : k = off + bs.length ∧ bs.length < 5 := by
  obtain h | ⟨⟨tag, cs⟩, htag, h⟩ := rbind_error.1 h
  · have := takeByte_short h
    omega
  have hlen := takeByte_length htag
  simp only at h
  split_ifs at h
  · split at h
    · obtain h | ⟨⟨r, ds⟩, -, h⟩ := rbind_error.1 h
      · have := takeReg_short_bound h
        omega
      · cases h
    · obtain h | ⟨⟨a, ds⟩, -, h⟩ := rbind_error.1 h
      · have := takeLE_short_bound h
        omega
      · cases h
  · cases h

/-- A source stops only where fewer bytes than the longest one are left. -/
theorem takeOperand_short_bound {role : Role} (hn : n ≤ 4) (h : takeOperand role n off bs = .error (.short k)) :
    k = off + bs.length ∧ bs.length < 5 := by
  obtain h | ⟨⟨tag, cs⟩, htag, h⟩ := rbind_error.1 h
  · have := takeByte_short h
    omega
  have hlen := takeByte_length htag
  have hreg : takeReg (off + 1) cs = .error (.short k) → k = off + bs.length ∧ bs.length < 5 := fun h => by
    have := takeReg_short_bound h
    omega
  have hfield : ∀ m ≤ 4, takeLE m (off + 1) cs = .error (.short k) → k = off + bs.length ∧ bs.length < 5 :=
    fun m hm h => by
      have := takeLE_short_bound h
      omega
  simp only at h
  split_ifs at h
  · split at h
    all_goals obtain h | ⟨⟨x, ds⟩, -, h⟩ := rbind_error.1 h
    · exact hreg h
    · cases h
    · exact hfield 4 (le_refl 4) h
    · cases h
    · exact hfield n hn h
    · cases h
    · exact hreg h
    · cases h
  · cases h

/-- Decoding runs out of bytes only at the first one past the list, and only on a list shorter than the longest
instruction (rules R60, R92, R102). -/
theorem decode_short_bound (h : decode bs = .error (.short k)) : k = bs.length ∧ bs.length < maxLength := by
  have hmax : maxLength = 13 := rfl
  obtain h | ⟨⟨b0, bs0⟩, hb0, h⟩ := rbind_error.1 h
  · have := takeByte_short h
    omega
  have hlen0 := takeByte_length hb0
  obtain h | ⟨⟨b1, bs1⟩, hb1, h⟩ := rbind_error.1 h
  · have := takeByte_short h
    omega
  have hlen1 := takeByte_length hb1
  simp only at h
  cases hdata : dataOp (b1 ++ b0).toNat with
  | some mk =>
    simp only [hdata] at h
    obtain h | ⟨⟨wb, bs2⟩, hwb, h⟩ := rbind_error.1 h
    · have := takeByte_short h
      omega
    have hlen2 := takeByte_length hwb
    cases hw : decodeWidth wb with
    | none => simp [hw] at h
    | some w =>
      simp only [hw] at h
      obtain h | ⟨⟨dst, bs3⟩, hdst, h⟩ := rbind_error.1 h
      · have := takeDst_short_bound h
        omega
      have hlen3 := congrArg List.length (takeDst_ok hdst)
      have hsize := dst_size_bounds dst
      rw [List.length_append, encodeDst_length] at hlen3
      obtain h | ⟨⟨src, bs4⟩, -, h⟩ := rbind_error.1 h
      · have := takeOperand_short_bound (bytes_le w) h
        simp only at this
        omega
      · cases h
  | none =>
    simp only [hdata] at h
    cases hcontrol : controlOp (b1 ++ b0).toNat with
    | none => simp [hcontrol] at h
    | some mk =>
      simp only [hcontrol] at h
      obtain h | ⟨⟨src, bs2⟩, -, h⟩ := rbind_error.1 h
      · have := takeOperand_short_bound (le_refl 4) h
        omega
      · cases h

/-! ## The bytes fetched -/

@[simp] theorem fetchBytes_length (s : State) : s.fetchBytes.length = min maxLength (s.cfg.memSize - s.ip.toNat) :=
  bytes_length _ _ _

theorem fetchBytes_getElem (s : State) (k : Nat) (h : k < s.fetchBytes.length) :
    s.fetchBytes[k] = s.mem.read (s.ip.toNat + k) := bytes_getElem _ _ _ _ h

/-- Where memory holds an instruction's whole encoding at ip, the fetch unit gives it first. -/
theorem fetchBytes_eq_encode_append (hfits : s.ip.toNat + (encode i).length ≤ s.cfg.memSize)
    (hbytes : ∀ (k : Nat) (h : k < (encode i).length), s.mem.read (s.ip.toNat + k) = (encode i)[k]) :
    ∃ rest, s.fetchBytes = encode i ++ rest := by
  have hmax := length_le_maxLength i
  rw [encode_length] at hfits
  have hlen : i.length ≤ s.fetchBytes.length := by
    rw [fetchBytes_length]
    omega
  have hprefix : s.fetchBytes.take i.length = encode i := by
    apply List.ext_getElem (by rw [List.length_take, encode_length]; omega)
    intro k hk hk'
    rw [List.getElem_take, fetchBytes_getElem, hbytes k hk']
  exact ⟨s.fetchBytes.drop i.length, by rw [← hprefix, List.take_append_drop]⟩

/-- A program word placed at ip, where the longest instruction fits, is what the fetch unit gives. -/
theorem fetchBytes_withFetchWord {nbits w : Nat} (hfits : s.ip.toNat + 13 ≤ s.cfg.memSize) :
    (s.withFetchWord nbits w).fetchBytes = tableBytes nbits w := by
  have hlen : (tableBytes nbits w).length = 13 := leBytes_length _ _
  have hfetch : (s.withFetchWord nbits w).fetchable = (tableBytes nbits w).length := by
    show min 13 (s.cfg.memSize - s.ip.toNat) = _
    omega
  have hmem : (s.withFetchWord nbits w).mem = s.mem.writeBytes s.ip.toNat (tableBytes nbits w) := by
    show s.mem.writeBytes s.ip.toNat ((tableBytes nbits w).take (s.cfg.memSize - s.ip.toNat)) = _
    rw [List.take_of_length_le (by omega)]
  rw [State.fetchBytes, hfetch, hmem]
  exact bytes_writeBytes _ _ _

/-! ## A step of a Running core -/

theorem step_of_decode_ok (hrun : s.status = .running) (hdec : decode s.fetchBytes = .ok (i, rest)) :
    step s = exec i s := by
  simp [step, hrun, State.fetchDecode, hdec]

/-- A decoding that meets an illegal field ends the step with its DecodeError and changes nothing else. -/
theorem step_of_decode_illegal {field : DecodeField} {value : BitVec 16} (hrun : s.status = .running)
    (hdec : decode s.fetchBytes = .error (.illegal off field value)) :
    step s = .next { s with status := .trapped (.decodeError s.ip off field value) } := by
  simp [step, hrun, State.fetchDecode, hdec, State.decodeTrap, State.raise, State.setStatus]

/-- Where memory holds an instruction's whole encoding at ip, the step runs it, whoever wrote those bytes. -/
theorem step_of_encode (hrun : s.status = .running) (hwf : i.wellFormed = true)
    (hfits : s.ip.toNat + (encode i).length ≤ s.cfg.memSize)
    (hbytes : ∀ (k : Nat) (h : k < (encode i).length), s.mem.read (s.ip.toNat + k) = (encode i)[k]) :
    step s = exec i s := by
  obtain ⟨rest, hfetch⟩ := fetchBytes_eq_encode_append hfits hbytes
  exact step_of_decode_ok hrun (hfetch ▸ decode_encode hwf)

/-! ## The statements about the instruction cycle (rules R60, R66, R101, R105–R110 of spec/30_encoding.md) -/

/-- Settles O6: the bytes fetched are memory's, and those decoded are the instruction's encoding, of its length. -/
theorem stepRunsTheDecodedInstruction : Obligations.StepRunsTheDecodedInstruction := by
  intro s i rest hrun hdec
  refine ⟨step_of_decode_ok hrun hdec, ?length, ?inside, fetchBytes_getElem s⟩
  case length =>
    obtain ⟨-, hbytes⟩ := decode_ok hdec
    rw [hbytes, List.length_append, encode_length]
  case inside =>
    rw [fetchBytes_length]
    omega

/-- Settles O7: the fetch unit gives the encoding first, and the decoder looks at nothing after it. -/
theorem stepRunsTheEncodedBytes : Obligations.StepRunsTheEncodedBytes := fun _ _ hrun hwf hfits hbytes =>
  step_of_encode hrun hwf hfits hbytes

/-- Settles O8: the step raises the trap of the refusal, and a byte that the decoder misses is at or past MEM_SIZE. -/
theorem stoppedDecodingTraps : Obligations.StoppedDecodingTraps := by
  refine ⟨fun s off field value hrun hdec => step_of_decode_illegal hrun hdec, fun s off hrun hdec => ?_⟩
  refine ⟨?_, step_of_decode_short hrun hdec⟩
  obtain ⟨hoff, hlt⟩ := decode_short_bound hdec
  rw [fetchBytes_length] at hoff hlt
  omega

/-- Settles O10: the fetch unit gives the word's bytes, which are all that the decoder of the table's words is given. -/
theorem placedWordIsRunNext : Obligations.PlacedWordIsRunNext := by
  intro s nbits w i hword hfits
  unfold decodeTableWord at hword
  cases hdec : decode (tableBytes nbits w) with
  | error e => simp [hdec] at hword
  | ok r =>
    obtain ⟨j, rest⟩ := r
    simp only [hdec] at hword
    cases hword
    exact step_of_decode_ok rfl ((fetchBytes_withFetchWord hfits).symm ▸ hdec)

end Sys2Proof.Machine.Proofs

/-! SUPPORT. Faults in their order: an access out of range traps, and where the read before it succeeds the next access
is the one that traps (rule R204 of spec/60_exceptions.md). -/

namespace Sys2Proof.Machine.Proofs

open Sys2Proof.Laws Sys2Proof.Machine.Laws

variable {s : State} {w : Width} {dst : Dst} {src : Src} {l : Loc} {a n : Word} {e : Trap}

/-! ## An operand out of range -/

theorem readLoc_invalid (h : s.cfg.memSize < a.toNat + w.bytes) :
    s.readLoc (.mem a) w = .error (.memoryFault s.ip a w .read) := memRead_invalid h

theorem writeLoc_invalid (v : BitVec w.bits) (h : s.cfg.memSize < a.toNat + w.bytes) :
    s.writeLoc (.mem a) w v = .error (.memoryFault s.ip a w .write) := memWrite_invalid v h

/-- An operand that points out of range has no value (rules R95, R97). -/
theorem value_invalid (hl : srcLoc s src = some (.mem a)) (h : s.cfg.memSize < a.toNat + w.bytes) :
    s.value src w = .error (.memoryFault s.ip a w .read) := by
  rw [value_eq_readLoc hl, readLoc_invalid h]

/-- An operand that names a location has one in every state (rule R94). -/
theorem srcLoc_of_namesLocation (s : State) (h : src.namesLocation = true) : ∃ l, srcLoc s src = some l := by
  cases src with
  | imm v => cases h
  | reg k | mem a | ind k => exact ⟨_, rfl⟩

/-! ## `ld` and `st` -/

theorem execLd_source_error (he : s.value src w = .error e) : execLd w dst src s = .next (s.raise e) := by
  simp [execLd, he]

theorem execLd_write_error {v : BitVec w.bits} (hv : s.value src w = .ok v)
    (he : s.writeLoc (dstLoc dst) w v = .error e) : execLd w dst src s = .next (s.raise e) := by
  simp [execLd, hv, he]

theorem execSt_read_error (hl : srcLoc s src = some l) (he : s.readLoc (dstLoc dst) w = .error e) :
    execSt w dst src s = .next (s.raise e) := by
  simp [execSt_eq hl, he]

theorem execSt_write_error {v : BitVec w.bits} (hl : srcLoc s src = some l) (hv : s.readLoc (dstLoc dst) w = .ok v)
    (he : s.writeLoc l w v = .error e) : execSt w dst src s = .next (s.raise e) := by
  simp [execSt_eq hl, hv, he]

/-! ## `cmp` and the arithmetic instructions -/

/-- Each of the six reads the destination, then the source, and does the rest with the two values. -/
theorem twoOperand_reads {mk : Width → Dst → Src → Instr}
    (hmk : mk ∈ [Instr.cmp, Instr.add, Instr.sub, Instr.mul, Instr.div, Instr.mod]) (w : Width) (dst : Dst) (src : Src)
    (s : State) : ∃ finish : BitVec w.bits → BitVec w.bits → Except Trap State,
      exec (mk w dst src) s =
        complete s (s.readLoc (dstLoc dst) w >>= fun a => s.value src w >>= fun b => finish a b) := by
  simp only [List.mem_cons, List.not_mem_nil, or_false] at hmk
  obtain rfl | rfl | rfl | rfl | rfl | rfl := hmk <;> exact ⟨_, rfl⟩

/-- The destination's fault comes first, whatever the source is. -/
theorem twoOperand_dst_error {mk : Width → Dst → Src → Instr}
    (hmk : mk ∈ [Instr.cmp, Instr.add, Instr.sub, Instr.mul, Instr.div, Instr.mod])
    (he : s.readLoc (dstLoc dst) w = .error e) : exec (mk w dst src) s = .next (s.raise e) := by
  obtain ⟨finish, hreads⟩ := twoOperand_reads hmk w dst src s
  simp [hreads, he]

/-- The source's fault comes second, before the operation is performed. -/
theorem twoOperand_source_error {mk : Width → Dst → Src → Instr}
    (hmk : mk ∈ [Instr.cmp, Instr.add, Instr.sub, Instr.mul, Instr.div, Instr.mod]) {v : BitVec w.bits}
    (hv : s.readLoc (dstLoc dst) w = .ok v) (he : s.value src w = .error e) :
    exec (mk w dst src) s = .next (s.raise e) := by
  obtain ⟨finish, hreads⟩ := twoOperand_reads hmk w dst src s
  simp [hreads, hv, he]

/-! ## `int` -/

theorem execInt_number_error (he : s.number src = .error e) : execInt src s = .next (s.raise e) := by
  simp [execInt, he]

theorem execInt_noHandler (hn : s.number src = .ok n) (hd : s.dispatch n = none) :
    execInt src s = .next (s.raise (.unknownInterrupt s.ip n)) := by
  simp [execInt, hn, hd]

/-! ## The statements about the order of faults (rules R130, R131, R140, R155, R191 and R204) -/

/-- Settles O18: the read that comes first faults, or it succeeds and the check of the written location faults. -/
theorem ldStFaultsInOrder : Obligations.LdStFaultsInOrder := by
  refine ⟨?ldRead, ?ldWrite, ?stRead, ?stWrite, ?stImmediate⟩
  case ldRead => exact fun w dst src s a hl hout => execLd_source_error (value_invalid hl hout)
  case ldWrite =>
    intro w src s a hreadable hout
    obtain ⟨v, hv⟩ := value_exists hreadable
    exact execLd_write_error hv (writeLoc_invalid v hout)
  case stRead =>
    intro w src s a hnames hout
    obtain ⟨l, hl⟩ := srcLoc_of_namesLocation s hnames
    exact execSt_read_error hl (readLoc_invalid hout)
  case stWrite =>
    intro w dst src s a hreach hl hout
    obtain ⟨v, hv⟩ := readLoc_ok_iff.2 hreach
    exact execSt_write_error hl hv (writeLoc_invalid v hout)
  case stImmediate =>
    intro w dst v s
    have hoff : 3 + (encodeDst dst).length = 4 + dst.size := by
      rw [encodeDst_length]
      omega
    rw [hoff]
    exact execSt_imm (w := w) v

/-- Settles O21: the destination is read first and the source second, both before the operation. -/
theorem twoOperandFaultsInOrder : Obligations.TwoOperandFaultsInOrder := by
  intro mk hmk
  refine ⟨fun w src s a hout => twoOperand_dst_error hmk (readLoc_invalid hout), ?_⟩
  intro w dst src s a hreach hl hout
  obtain ⟨v, hv⟩ := readLoc_ok_iff.2 hreach
  exact twoOperand_source_error hmk hv (value_invalid hl hout)

/-- Settles O30: an unreadable number is the operand read's fault, and a number in no table has no handler. -/
theorem intTraps : Obligations.IntTraps := by
  refine ⟨fun src s a hl hout => execInt_number_error (value_invalid hl hout), ?_⟩
  intro src s n hn hhandlers hdefault
  have hnone : s.hasHandler n = false := by simp [State.hasHandler, hhandlers, hdefault]
  exact execInt_noHandler hn (dispatch_none.2 hnone)

end Sys2Proof.Machine.Proofs

/-! SUPPORT. Arithmetic results: what each operation computes under each setting, and that an instruction whose
operation gives a result completes with it in the destination (rules R150–R156 of spec/42_arithmetic.md). -/

namespace Sys2Proof.Machine.Proofs

open Sys2Proof.Machine.Laws

variable {s : State} {w : Width} {dst : Dst} {src : Src} {i : Instr}

/-! ## The operations -/

section operations

variable {n : Nat} (a b : BitVec n) {cfg : Config} {ip : Word}

theorem opAdd_toNat : (opAdd a b).toNat = (a.toNat + b.toNat) % 2 ^ n := BitVec.toNat_ofNat _ _

theorem opMul_toNat : (opMul a b).toNat = a.toNat * b.toNat % 2 ^ n := BitVec.toNat_ofNat _ _

theorem opSub_toNat : ((opSub a b).toNat : Int) = ((a.toNat : Int) - b.toNat) % 2 ^ n := by
  have hpow : ((2 ^ n : Nat) : Int) = 2 ^ n := by push_cast; rfl
  rw [opSub, BitVec.toNat_ofInt, hpow, Int.toNat_of_nonneg (Int.emod_nonneg _ (by positivity))]

variable {a b}

theorem toNat_ne_zero (hb : b ≠ 0) : b.toNat ≠ 0 := fun h => hb (BitVec.eq_of_toNat_eq h)

theorem opDiv_unsigned (hsg : cfg.signedness = .unsigned) (hb : b ≠ 0) : opDiv cfg ip a b = .ok (a / b) := by
  simp only [opDiv, if_neg (toNat_ne_zero hb), hsg, BitVec.udiv_def]

theorem opMod_unsigned (hsg : cfg.signedness = .unsigned) (hb : b ≠ 0) : opMod cfg ip a b = .ok (a % b) := by
  simp only [opMod, if_neg (toNat_ne_zero hb), hsg, BitVec.umod_def]

/-- The truncated quotient, narrowed, is the library's signed division. -/
theorem ofInt_tdiv (a b : BitVec n) : BitVec.ofInt n (a.toInt.tdiv b.toInt) = a.sdiv b := by
  apply BitVec.eq_of_toInt_eq
  rw [BitVec.toInt_ofInt, BitVec.toInt_sdiv]

/-- The remainder of the truncated quotient, narrowed, is the library's signed remainder. -/
theorem ofInt_tdiv_remainder (a b : BitVec n) :
    BitVec.ofInt n (a.toInt - a.toInt.tdiv b.toInt * b.toInt) = a.srem b := by
  rw [Int.mul_comm, ← Int.tmod_def, ← BitVec.toInt_srem, BitVec.ofInt_toInt]

theorem signedOverflows_iff : signedOverflows a b = true ↔ a.toInt = -(2 ^ (n - 1)) ∧ b.toInt = -1 := by
  simp [signedOverflows]

theorem opDiv_signed (hsg : cfg.signedness = .signed) (hb : b ≠ 0) (ho : signedOverflows a b = false) :
    opDiv cfg ip a b = .ok (a.sdiv b) := by
  simp only [opDiv, if_neg (toNat_ne_zero hb), hsg, ho, Bool.false_eq_true, if_false, ofInt_tdiv]

theorem opMod_signed (hsg : cfg.signedness = .signed) (hb : b ≠ 0) (ho : signedOverflows a b = false) :
    opMod cfg ip a b = .ok (a.srem b) := by
  simp only [opMod, if_neg (toNat_ne_zero hb), hsg, ho, Bool.false_eq_true, if_false, ofInt_tdiv_remainder]

/-- A divisor of −1 is not zero. -/
theorem toNat_ne_zero_of_overflows (ho : signedOverflows a b = true) : b.toNat ≠ 0 := by
  refine toNat_ne_zero fun hb => ?_
  obtain ⟨-, hminus⟩ := signedOverflows_iff.1 ho
  simp [hb] at hminus

theorem opDiv_overflow (hsg : cfg.signedness = .signed) (ho : signedOverflows a b = true) :
    (cfg.signedDivOverflow = .fault → opDiv cfg ip a b = .error (.arithmeticError ip .div)) ∧
    (cfg.signedDivOverflow = .wrap → opDiv cfg ip a b = .ok a) := by
  constructor <;> intro hset <;> simp only [opDiv, if_neg (toNat_ne_zero_of_overflows ho), hsg, ho, if_true, hset]

theorem opMod_overflow (hsg : cfg.signedness = .signed) (ho : signedOverflows a b = true) :
    (cfg.signedDivOverflow = .fault → opMod cfg ip a b = .error (.arithmeticError ip .mod)) ∧
    (cfg.signedDivOverflow = .wrap → opMod cfg ip a b = .ok 0) := by
  constructor <;> intro hset <;> simp only [opMod, if_neg (toNat_ne_zero_of_overflows ho), hsg, ho, if_true, hset]
  rfl

end operations

/-- Off MIN ÷ −1 the truncated quotient is a T-width value: the narrowing loses nothing. -/
theorem sdiv_toInt {a b : BitVec w.bits} (ho : signedOverflows a b = false) :
    (a.sdiv b).toInt = a.toInt.tdiv b.toInt := by
  have hmin : (BitVec.intMin w.bits).toInt = -(2 ^ (w.bits - 1)) := by cases w <;> rfl
  have hminus : (-1#w.bits).toInt = -1 := by cases w <;> rfl
  apply BitVec.toInt_sdiv_of_ne_or_ne
  by_contra! hboth
  obtain ⟨rfl, rfl⟩ := hboth
  rw [signedOverflows_iff.2 ⟨hmin, hminus⟩] at ho
  cases ho

/-! ## The instructions -/

/-- An instruction of the family whose operation gives a result completes, and its destination then holds the result. -/
theorem arith_completes {op : BitVec w.bits → BitVec w.bits → Except Trap (BitVec w.bits)} {a b r : BitVec w.bits}
    (hi : exec i s = arith w dst src i.length op s) (ha : s.readLoc (dstLoc dst) w = .ok a)
    (hb : s.value src w = .ok b) (hr : op a b = .ok r) :
    ∃ t, Completes i (dstLoc dst) w s t ∧ t.readLoc (dstLoc dst) w = .ok r :=
  exists_completes_readLoc (readLoc_ok_iff.1 ⟨a, ha⟩) fun u hu => by simp [hi, arith, ha, hb, hr, hu]

theorem div_completes {a b q : BitVec w.bits} (ha : s.readLoc (dstLoc dst) w = .ok a) (hb : s.value src w = .ok b)
    (hq : opDiv s.cfg s.ip a b = .ok q) :
    ∃ t, Completes (.div w dst src) (dstLoc dst) w s t ∧ t.readLoc (dstLoc dst) w = .ok q :=
  arith_completes rfl ha hb hq

theorem mod_completes {a b r : BitVec w.bits} (ha : s.readLoc (dstLoc dst) w = .ok a) (hb : s.value src w = .ok b)
    (hr : opMod s.cfg s.ip a b = .ok r) :
    ∃ t, Completes (.mod w dst src) (dstLoc dst) w s t ∧ t.readLoc (dstLoc dst) w = .ok r :=
  arith_completes rfl ha hb hr

/-! ## The statements about results (rules R150–R156 of spec/42_arithmetic.md) -/

/-- Settles O22: readable operands have values, and each operation's result goes to the destination that was read. -/
theorem addSubMulResults : Obligations.AddSubMulResults := by
  intro w dst src s hreach hreadable
  obtain ⟨a, ha⟩ := readLoc_ok_iff.2 hreach
  obtain ⟨b, hb⟩ := value_exists hreadable
  refine ⟨a, b, ha, hb, ?add, ?sub, ?mul⟩
  case add =>
    obtain ⟨t, ht, hread⟩ := arith_completes (i := .add w dst src) rfl ha hb rfl
    exact ⟨t, _, ht, hread, opAdd_toNat a b⟩
  case sub =>
    obtain ⟨t, ht, hread⟩ := arith_completes (i := .sub w dst src) rfl ha hb rfl
    exact ⟨t, _, ht, hread, opSub_toNat a b⟩
  case mul =>
    obtain ⟨t, ht, hread⟩ := arith_completes (i := .mul w dst src) rfl ha hb rfl
    exact ⟨t, _, ht, hread, opMul_toNat a b⟩

/-- Settles O23: off a zero divisor the unsigned operations are the library's division and remainder. -/
theorem unsignedDivModResults : Obligations.UnsignedDivModResults := by
  intro w dst src s a b hsg ha hb hne
  obtain ⟨t, ht, hquotient⟩ := div_completes ha hb (opDiv_unsigned hsg hne)
  obtain ⟨u, hu, hremainder⟩ := mod_completes ha hb (opMod_unsigned hsg hne)
  exact ⟨⟨t, _, ht, hquotient, BitVec.toNat_udiv⟩, ⟨u, _, hu, hremainder, BitVec.toNat_umod⟩⟩

/-- Settles O24: off MIN ÷ −1 the signed operations are the library's, which truncate toward zero. -/
theorem signedDivModResults : Obligations.SignedDivModResults := by
  intro w dst src s a b hsg ha hb hne hexcept
  have ho : signedOverflows a b = false := by
    rw [← Bool.not_eq_true, signedOverflows_iff]
    exact hexcept
  obtain ⟨t, ht, hquotient⟩ := div_completes ha hb (opDiv_signed hsg hne ho)
  obtain ⟨u, hu, hremainder⟩ := mod_completes ha hb (opMod_signed hsg hne ho)
  exact ⟨⟨t, _, ht, hquotient, sdiv_toInt ho⟩, ⟨u, _, hu, hremainder, BitVec.toInt_srem a b⟩⟩

/-- Settles O25: MIN ÷ −1 is not the zero divisor, so the setting alone decides between the trap and the result. -/
theorem signedOverflowFollowsItsSetting : Obligations.SignedOverflowFollowsItsSetting := by
  intro w dst src s a b hsg ha hb hmin hminus
  have ho := signedOverflows_iff.2 ⟨hmin, hminus⟩
  obtain ⟨hdivFault, hdivWrap⟩ := opDiv_overflow (ip := s.ip) hsg ho
  obtain ⟨hmodFault, hmodWrap⟩ := opMod_overflow (ip := s.ip) hsg ho
  refine ⟨fun hset => ⟨?_, ?_⟩, fun hset => ⟨?_, ?_⟩⟩
  · exact arith_error ha hb (hdivFault hset)
  · exact arith_error ha hb (hmodFault hset)
  · exact div_completes ha hb (hdivWrap hset)
  · exact mod_completes ha hb (hmodWrap hset)

end Sys2Proof.Machine.Proofs

/-! SUPPORT. A dispatcher's writes: what a list of them leaves alone, and that some list reaches every state that a
dispatcher may leave (rule R192 of spec/44_interrupt.md). -/

namespace Sys2Proof.Machine.Proofs

open Sys2Proof.Machine.Laws

variable {s : State}

/-! ## What a list of writes leaves alone -/

theorem hostWrites_append (s : State) (ws ws' : List HostWrite) :
    s.hostWrites (ws ++ ws') = (s.hostWrites ws).hostWrites ws' := List.foldl_append

theorem hostWrites_cons (s : State) (e : HostWrite) (ws : List HostWrite) :
    s.hostWrites (e :: ws) = (s.hostWrite e).hostWrites ws := rfl

theorem hostWrite_mem_inside {b : Word} (h : b.toNat < s.cfg.memSize) (v : Byte) :
    s.hostWrite (.mem b v) = s.setMem (s.mem.write b.toNat v) := if_pos h

theorem hostWrite_mem_outside {b : Word} (h : ¬ b.toNat < s.cfg.memSize) (v : Byte) : s.hostWrite (.mem b v) = s :=
  if_neg h

/-- One write leaves cf as it is, or stores bits 2:0 alone (rules R30, R192). -/
theorem hostWrite_cf (s : State) (e : HostWrite) :
    (s.hostWrite e).cf = s.cf ∨ (s.hostWrite e).cf &&& 0xF8#8 = 0#8 := by
  cases e with
  | cf v =>
    right
    rw [State.hostWrite, setCf_cf, BitVec.and_assoc]
    exact BitVec.and_zero
  | mem b v =>
    by_cases hb : b.toNat < s.cfg.memSize
    · exact .inl (by rw [hostWrite_mem_inside hb, setMem_cf])
    · exact .inl (by rw [hostWrite_mem_outside hb])
  | r n v | i0 v | f n v => exact .inl rfl

/-- One write leaves every byte outside memory as it is (rule R50). -/
theorem hostWrite_read_outside (e : HostWrite) {c : Nat} (hc : s.cfg.memSize ≤ c) :
    (s.hostWrite e).mem.read c = s.mem.read c := by
  cases e with
  | mem b v =>
    by_cases hb : b.toNat < s.cfg.memSize
    · rw [hostWrite_mem_inside hb, setMem_mem, read_write, if_neg (by omega)]
    · rw [hostWrite_mem_outside hb]
  | r n v | i0 v | f n v | cf v => rfl

theorem hostWrites_cf (s : State) (ws : List HostWrite) :
    (s.hostWrites ws).cf = s.cf ∨ (s.hostWrites ws).cf &&& 0xF8#8 = 0#8 := by
  induction ws generalizing s with
  | nil => exact .inl rfl
  | cons e ws ih =>
    obtain hkept | hmasked := ih (s.hostWrite e)
    · rw [hostWrites_cons, hkept]
      exact hostWrite_cf s e
    · exact .inr hmasked

theorem hostWrites_read_outside (ws : List HostWrite) {c : Nat} (hc : s.cfg.memSize ≤ c) :
    (s.hostWrites ws).mem.read c = s.mem.read c := by
  induction ws generalizing s with
  | nil => rfl
  | cons e ws ih =>
    obtain ⟨-, -, hlaunch⟩ := hostWrite_frame s e
    rw [hostWrites_cons, ih (hlaunch.cfg ▸ hc), hostWrite_read_outside e hc]

/-! ## What a list of writes can reach -/

/-- The writes that give the integer registers named in `ns` their values in `rf`. -/
def intRegWrites (rf : RegFile) (ns : List (Fin 10)) : List HostWrite := ns.map fun n => .r n rf.r[n.val]

/-- The writes that give the float registers named in `ns` their values in `rf`. -/
def floatRegWrites (rf : RegFile) (ns : List (Fin 10)) : List HostWrite := ns.map fun n => .f n rf.f[n.val]

/-- The writes that give the bytes at the addresses `as` their values in `m`. -/
def byteWrites (m : Memory) (as : List Nat) : List HostWrite := as.map fun a => .mem (BitVec.ofNat 32 a) (m.read a)

/-- Setting the entries named in a list to those of another vector. -/
def copyEntries (v v' : Vector Word 10) (ns : List (Fin 10)) : Vector Word 10 :=
  ns.foldl (fun u n => u.set n.val v'[n.val]) v

theorem copyEntries_getElem (v v' : Vector Word 10) (ns : List (Fin 10)) (k : Nat) (hk : k < 10) :
    (copyEntries v v' ns)[k] = if (⟨k, hk⟩ : Fin 10) ∈ ns then v'[k] else v[k] := by
  induction ns generalizing v with
  | nil => rfl
  | cons n ns ih =>
    have hstep : copyEntries v v' (n :: ns) = copyEntries (v.set n.val v'[n.val]) v' ns := rfl
    rw [hstep, ih]
    by_cases hn : n.val = k
    · subst hn
      simp
    · have hne : (⟨k, hk⟩ : Fin 10) ≠ n := fun e => hn (congrArg Fin.val e).symm
      simp [hne, Vector.getElem_set_ne, hn]

/-- Every entry copied is the other vector. -/
theorem copyEntries_all (v v' : Vector Word 10) : copyEntries v v' (List.finRange 10) = v' :=
  Vector.ext fun k hk => by rw [copyEntries_getElem, if_pos (List.mem_finRange _)]

theorem hostWrites_intRegWrites (s : State) (rf : RegFile) (ns : List (Fin 10)) :
    s.hostWrites (intRegWrites rf ns) = { s with regs := { s.regs with r := copyEntries s.regs.r rf.r ns } } := by
  induction ns generalizing s with
  | nil => rfl
  | cons n ns ih => exact ih (s.hostWrite (.r n rf.r[n.val]))

theorem hostWrites_floatRegWrites (s : State) (rf : RegFile) (ns : List (Fin 10)) :
    s.hostWrites (floatRegWrites rf ns) = { s with regs := { s.regs with f := copyEntries s.regs.f rf.f ns } } := by
  induction ns generalizing s with
  | nil => rfl
  | cons n ns ih => exact ih (s.hostWrite (.f n rf.f[n.val]))

/-- Bytes inside memory are written in canonical form, and the others stay. -/
theorem hostWrites_byteWrites {m : Memory} {as : List Nat} (hwf : s.mem.wf = true) (hsize : s.cfg.memSize ≤ 2 ^ 32)
    (has : ∀ a ∈ as, a < s.cfg.memSize) :
    ∃ m', s.hostWrites (byteWrites m as) = s.setMem m' ∧ m'.wf = true ∧
      ∀ c, m'.read c = if c ∈ as then m.read c else s.mem.read c := by
  induction as generalizing s with
  | nil => exact ⟨s.mem, rfl, hwf, fun c => by simp⟩
  | cons a as ih =>
    have ha : a < s.cfg.memSize := has a List.mem_cons_self
    have haddr : (BitVec.ofNat 32 a).toNat = a := by
      rw [BitVec.toNat_ofNat]
      omega
    have hfirst : s.hostWrite (.mem (BitVec.ofNat 32 a) (m.read a)) = s.setMem (s.mem.write a (m.read a)) := by
      rw [hostWrite_mem_inside (haddr.symm ▸ ha), haddr]
    obtain ⟨m', hm', hwf', hread⟩ := ih (s := s.setMem (s.mem.write a (m.read a))) (wf_write _ _ hwf) hsize
      fun b hb => has b (List.mem_cons_of_mem a hb)
    refine ⟨m', ?_, hwf', fun c => ?_⟩
    · have hcons : s.hostWrites (byteWrites m (a :: as)) =
          (s.hostWrite (.mem (BitVec.ofNat 32 a) (m.read a))).hostWrites (byteWrites m as) := rfl
      rw [hcons, hfirst, hm']
      rfl
    · rw [hread, setMem_mem, read_write]
      by_cases hc : c = a
      · subst hc
        simp
      · simp [hc]

/-- Memory outside its listed addresses reads alike in every memory below the same size. -/
theorem read_of_below {m : Memory} {size c : Nat} (hwf : m.wf = true) (hbelow : m.below size = true) (hc : size ≤ c) :
    m.read c = Memory.unlisted := by
  by_contra hne
  obtain ⟨d, hd, rfl⟩ := read_listed hwf hne
  simp only [Memory.below, List.all_eq_true, decide_eq_true_eq] at hbelow
  have := hbelow d hd
  omega

/-- Writing every byte below MEM_SIZE reaches any memory that is canonical and lies there. -/
theorem hostWrites_reaches_memory {m : Memory} (hinv : s.Inv) (hwf : m.wf = true)
    (hbelow : m.below s.cfg.memSize = true) :
    s.hostWrites (byteWrites m (List.range s.cfg.memSize)) = s.setMem m := by
  have hsize : s.cfg.memSize ≤ 2 ^ 32 := of_decide_eq_true (Bool.and_eq_true_iff.1 hinv.memSize).2
  obtain ⟨m', hm', hwf', hread⟩ := hostWrites_byteWrites (m := m) hinv.memCanonical hsize
    (as := List.range s.cfg.memSize) fun a ha => List.mem_range.1 ha
  have hsame : m' = m := by
    refine wf_ext hwf' hwf fun c => ?_
    rw [hread]
    by_cases hc : c < s.cfg.memSize
    · rw [if_pos (List.mem_range.2 hc)]
    · rw [if_neg fun h => hc (List.mem_range.1 h), read_of_below hinv.memCanonical hinv.memBelow (by omega),
        read_of_below hwf hbelow (by omega)]
  rw [hm', hsame]

/-! ## The statements about a dispatcher's share (rules R190 and R192 of spec/44_interrupt.md) -/

/-- Settles O31: each write is to a register, to cf's low bits or to a byte inside memory, so their sequence is. -/
theorem dispatcherChangesOnlyItsShare : Obligations.DispatcherChangesOnlyItsShare := by
  intro s ws
  obtain ⟨hip, hstatus, hlaunch⟩ := hostWrites_frame s ws
  exact ⟨state_eq rfl hip rfl hstatus rfl ⟨hlaunch.cfg, hlaunch.answers, hlaunch.calls⟩, hostWrites_cf s ws,
    fun c hc => hostWrites_read_outside ws hc⟩

/-- Settles O32: every register, cf and every byte of memory is written with its value in the wanted state. -/
theorem everyDispatcherStateIsReached : Obligations.EveryDispatcherStateIsReached := by
  intro s rf cf m hinv hwf hbelow
  refine ⟨byteWrites m (List.range s.cfg.memSize) ++ (intRegWrites rf (List.finRange 10) ++
    (floatRegWrites rf (List.finRange 10) ++ [.i0 rf.i0, .cf cf])), ?_⟩
  rw [hostWrites_append, hostWrites_append, hostWrites_append, hostWrites_reaches_memory hinv hwf hbelow,
    hostWrites_intRegWrites, hostWrites_floatRegWrites, copyEntries_all, copyEntries_all]
  rfl

end Sys2Proof.Machine.Proofs

/-! SUPPORT. What holds of every instruction and of every step: there is an answer, ip changes in three ways, the launch
stays but for a dispatcher call, and a trap is one of the instruction's own. -/

namespace Sys2Proof.Machine.Proofs

open Sys2Proof.Machine.Laws

variable {s t : State} {i : Instr} {w : Width} {dst : Dst} {src : Src}

/-! ## Every instruction and every step answers -/

theorem exec_exists (i : Instr) (s : State) : ∃ t, exec i s = .next t := by
  cases i with
  | ld w dst src | st w dst src | cmp w dst src | add w dst src | sub w dst src | mul w dst src | div w dst src
  | mod w dst src | int src => exact complete_exists s _
  | jmp src | je src | jne src | jg src | jge src | jl src | jle src => exact ⟨_, rfl⟩

theorem step_exists (s : State) : ∃ t, step s = .next t := by
  by_cases hrun : s.status = .running
  · cases hfetch : s.fetchDecode with
    | ok i =>
      obtain ⟨t, ht⟩ := exec_exists i s
      exact ⟨t, by simp [step, hrun, hfetch, ht]⟩
    | error e => exact ⟨s.raise e, by simp [step, hrun, hfetch]⟩
  · exact ⟨s, stoppedCoreIsInert s hrun⟩

/-! ## ip -/

/-- A location written and ip advanced: ip is past the instruction. -/
theorem writeLoc_advance_ip {l : Loc} {v : BitVec w.bits} {u : State} (hu : s.writeLoc l w v = .ok u) (len : Nat) :
    (u.advance len).ip = s.ip + BitVec.ofNat 32 len := by
  obtain ⟨-, hip, -, -⟩ := writeLoc_only hu
  rw [advance_ip, hip]

/-! ## The launch -/

/-- The parameters stay; the answers and the count of calls stay too, or one call is made (rules R8, R190). -/
structure CallsAtMostOnce (s t : State) : Prop where
  cfg : t.cfg = s.cfg
  call : (t.calls = s.calls ∧ t.answers = s.answers) ∨ (t.calls = s.calls + 1 ∧ t.answers = s.answers.tail)

theorem callsAtMostOnce_of_sameLaunch (h : SameLaunch s t) : CallsAtMostOnce s t :=
  ⟨h.cfg, .inl ⟨h.calls, h.answers⟩⟩

theorem exec_callsAtMostOnce (h : exec i s = .next t) : CallsAtMostOnce s t := by
  cases exec_ends h with
  | writes l w v u hu ht =>
    obtain ⟨honly, -, -⟩ := writeLoc_advance_writesOrTraps hu i.length
    exact ht ▸ callsAtMostOnce_of_sameLaunch honly.launch
  | compares v ht | jumps src hi ht | passes ht | traps e he ht =>
    subst ht
    exact callsAtMostOnce_of_sameLaunch ⟨rfl, rfl, rfl⟩
  | dispatches src n a hi hn ha ht =>
    obtain ⟨-, -, -, hcfg, hanswers, hcalls⟩ := afterCall_fields s i.length a
    exact ht ▸ ⟨hcfg, .inr ⟨hcalls, hanswers⟩⟩

theorem step_callsAtMostOnce (h : step s = .next t) : CallsAtMostOnce s t := by
  by_cases hrun : s.status = .running
  · obtain ⟨i, -, hexec⟩ | ⟨e, -, rfl⟩ := step_running_cases hrun h
    · exact exec_callsAtMostOnce hexec
    · exact callsAtMostOnce_of_sameLaunch ⟨rfl, rfl, rfl⟩
  · obtain rfl : s = t := Host.Outcome.next.inj ((stoppedCoreIsInert s hrun).symm.trans h)
    exact callsAtMostOnce_of_sameLaunch ⟨rfl, rfl, rfl⟩

/-! ## Traps -/

/-- An instruction of a Running core that ends Trapped raised a trap of its own. -/
theorem raises_of_trapped {e : Trap} (hrun : s.status = .running) (h : exec i s = .next t)
    (htrapped : t.status = .trapped e) : Raises s i e := by
  have keeps (hstatus : t.status = s.status) : Raises s i e := by
    rw [htrapped, hrun] at hstatus
    cases hstatus
  cases exec_ends h with
  | writes l w v u hu ht =>
    obtain ⟨-, -, -, hstatus⟩ := writeLoc_only hu
    exact keeps (ht ▸ hstatus)
  | compares v ht | jumps src hi ht | passes ht => exact keeps (ht ▸ rfl)
  | dispatches src n a hi hn ha ht =>
    have hstatus := afterCall_status s i.length a
    subst ht
    split at hstatus
    · cases htrapped.symm.trans hstatus
    · exact keeps hstatus
  | traps e' he ht =>
    subst ht
    obtain rfl : e' = e := Status.trapped.inj htrapped
    exact he

/-! ## The statements about every instruction and every step -/

/-- Settles O38: `exec` answers a next state for every instruction, and a decoding that stops is a trap. -/
theorem everyStepAnswersANextState : Obligations.EveryStepAnswersANextState := step_exists

/-- Settles O41: only a dispatcher call changes anything of the launch, and an instruction makes one at most. -/
theorem stepKeepsTheParameters : Obligations.StepKeepsTheParameters := fun _ _ h =>
  ⟨(step_callsAtMostOnce h).cfg, (step_callsAtMostOnce h).call⟩

/-- Settles O28: each end of an instruction sets ip in one of the ways that rule R27 names. -/
theorem ipChangesInItsThreeWays : Obligations.IpChangesInItsThreeWays := by
  intro i s t _ h
  cases exec_ends h with
  | traps e he ht => exact .inl ⟨e, by rw [ht]; rfl, by rw [ht]; rfl⟩
  | writes l w v u hu ht => exact .inr (.inl (ht ▸ writeLoc_advance_ip hu _))
  | compares v ht | passes ht => exact .inr (.inl (ht ▸ rfl))
  | jumps src hi ht => exact .inr (.inr (.inl ⟨src, hi, ht ▸ rfl⟩))
  | dispatches src n a hi hn ha ht =>
    obtain hadvance | hjump := afterCall_ip s i.length a
    · exact .inr (.inl (ht ▸ hadvance))
    · exact .inr (.inr (.inr ⟨src, n, a, hi, hn, ha, ht ▸ hjump⟩))

/-- Settles O34: the traps an instruction can raise are the table's, but for a term that is not well formed. -/
theorem trapKindsOfEachInstruction : Obligations.TrapKindsOfEachInstruction := by
  intro i s t tr hwf hrun h htrapped
  cases raises_of_trapped hrun h htrapped with
  | div w dst src => exact .inl ⟨w, dst, src, rfl, rfl⟩
  | mod w dst src => exact .inr (.inl ⟨w, dst, src, rfl, rfl⟩)
  | noHandler hn => exact .inr (.inr (.inl ⟨_, _, rfl, hn, rfl⟩))
  | number hout => exact .inr (.inr (.inr (.inl ⟨_, _, rfl, hout, rfl⟩)))
  | read hi hout => exact .inr (.inr (.inr (.inr (.inl ⟨_, _, _, _, hi, hout, rfl⟩))))
  | write hi hout => exact .inr (.inr (.inr (.inr (.inr ⟨_, _, _, _, hi, hout, rfl⟩))))
  | stImmediate w dst v => cases hwf

/-- Settles O35: the frames of the data instructions and the jumps, and for `int` the state its call leaves. -/
theorem frameOfEachInstruction : Obligations.FrameOfEachInstruction := by
  refine ⟨?destination, ?st, ?cmp, ?jumps, ?int⟩
  case destination =>
    intro mk hmk w dst src s t h
    have hframe : WritesOrTraps (dstLoc dst) w s t := by
      simp only [List.mem_cons, List.not_mem_nil, or_false] at hmk
      obtain rfl | rfl | rfl | rfl | rfl | rfl := hmk
      · exact execLd_writesOrTraps h
      all_goals exact arith_writesOrTraps h
    exact ⟨hframe.only, hframe.cf, hframe.status⟩
  case st =>
    intro w dst src s t h
    obtain ⟨l, -, hcf, hstatus⟩ := execSt_frame h
    refine ⟨fun l hl => (execSt_writesOrTraps hl h).only, fun hl => ?_, hcf, hstatus⟩
    obtain ⟨e, rfl⟩ := execSt_traps hl h
    exact raise_writesNothing s e
  case cmp =>
    intro w dst src s t h
    refine ⟨execCmp_writesNothing h, ?_⟩
    obtain ⟨a, b, -, -, rfl⟩ | ⟨e, -, rfl⟩ | ⟨a, e, -, -, rfl⟩ := execCmp_cases h
    · exact .inl rfl
    · exact .inr ⟨e, rfl⟩
    · exact .inr ⟨e, rfl⟩
  case jumps => exact fun mk hmk src s t h => exec_jump_frame hmk h
  case int =>
    intro src s t h
    obtain ⟨n, a, hn, ha, ht⟩ | ⟨e, -, rfl⟩ | ⟨n, -, -, rfl⟩ := execInt_cases h
    · obtain rfl : t = afterCall s (Instr.int src).length a := ht
      exact .inr ⟨n, a, hn, ha, afterCall_eq _ _ _, afterCall_ip _ _ _, afterCall_status _ _ _⟩
    · exact .inl ⟨e, rfl⟩
    · exact .inl ⟨_, rfl⟩

end Sys2Proof.Machine.Proofs

/-! SUPPORT. The float registers are inert: with others in their place every operand, every write and every instruction
but `int` does the same (rule R25 of spec/10_state.md). -/

namespace Sys2Proof.Machine.Proofs

open Sys2Proof.Machine.Laws

variable {s t u : State} {w : Width} {dst : Dst} {src : Src} {l : Loc} {len : Nat} (f : Vector Word 10)

/-- `s` with other float registers. -/
def withFloats (s : State) (f : Vector Word 10) : State := { s with regs := { s.regs with f := f } }

/-! ## Operands -/

@[simp] theorem withFloats_reg (k : Reg) : (withFloats s f).reg k = s.reg k := by cases k <;> rfl

@[simp] theorem withFloats_readLoc : (withFloats s f).readLoc l w = s.readLoc l w := by
  cases l with
  | reg k => exact congrArg (fun v => Except.ok (BitVec.setWidth w.bits v)) (withFloats_reg f k)
  | mem a => rfl

@[simp] theorem withFloats_value : (withFloats s f).value src w = s.value src w := by
  cases src with
  | reg k => exact congrArg (fun v => Except.ok (BitVec.setWidth w.bits v)) (withFloats_reg f k)
  | ind k => exact congrArg (fun a => s.memRead a w) (withFloats_reg f k)
  | mem a | imm v => rfl

@[simp] theorem withFloats_srcLoc : srcLoc (withFloats s f) src = srcLoc s src := by
  cases src with
  | ind k => exact congrArg (fun a => some (Loc.mem a)) (withFloats_reg f k)
  | reg k | mem a | imm v => rfl

@[simp] theorem withFloats_target : (withFloats s f).target src = s.target src := by
  cases src with
  | reg k | ind k => exact withFloats_reg f k
  | mem a | imm v => rfl

/-! ## Writes -/

theorem withFloats_setReg (k : Reg) (v : Word) : (withFloats s f).setReg k v = withFloats (s.setReg k v) f := by
  cases k <;> rfl

theorem withFloats_writeLoc_ok {v : BitVec w.bits} (h : s.writeLoc l w v = .ok u) :
    (withFloats s f).writeLoc l w v = .ok (withFloats u f) := by
  cases l with
  | reg k =>
    cases h
    rw [State.writeLoc, State.writeReg, withFloats_reg, withFloats_setReg]
    rfl
  | mem a =>
    obtain ⟨hvalid, rfl⟩ := memWrite_ok h
    exact memWrite_valid v hvalid

theorem withFloats_writeLoc_error {v : BitVec w.bits} {e : Trap} (h : s.writeLoc l w v = .error e) :
    (withFloats s f).writeLoc l w v = .error e := by
  obtain ⟨a, rfl, hout, rfl⟩ := writeLoc_error h
  exact writeLoc_invalid v hout

/-! ## The instructions -/

theorem withFloats_execLd (h : execLd w dst src s = .next t) :
    execLd w dst src (withFloats s f) = .next (withFloats t f) := by
  obtain ⟨v, u, hv, hu, rfl⟩ | ⟨e, he, rfl⟩ | ⟨v, e, hv, he, rfl⟩ := execLd_cases h
  · simp only [execLd, withFloats_value, hv, ok_bind, withFloats_writeLoc_ok f hu]
    rfl
  · exact execLd_source_error (by rw [withFloats_value, he])
  · exact execLd_write_error (by rw [withFloats_value, hv]) (withFloats_writeLoc_error f he)

theorem withFloats_execSt (h : execSt w dst src s = .next t) :
    execSt w dst src (withFloats s f) = .next (withFloats t f) := by
  cases hl : srcLoc s src with
  | some l =>
    have hl' : srcLoc (withFloats s f) src = some l := (withFloats_srcLoc f).trans hl
    obtain ⟨v, u, hv, hu, rfl⟩ | ⟨e, he, rfl⟩ | ⟨v, e, hv, he, rfl⟩ := execSt_cases hl h
    · simp only [execSt_eq hl', withFloats_readLoc, hv, ok_bind, withFloats_writeLoc_ok f hu]
      rfl
    · exact execSt_read_error hl' (by rw [withFloats_readLoc, he])
    · exact execSt_write_error hl' (by rw [withFloats_readLoc, hv]) (withFloats_writeLoc_error f he)
  | none =>
    cases src with
    | imm v =>
      cases h
      rfl
    | reg k | mem a | ind k => cases hl

theorem withFloats_execCmp (h : execCmp w dst src s = .next t) :
    execCmp w dst src (withFloats s f) = .next (withFloats t f) := by
  obtain ⟨a, b, ha, hb, rfl⟩ | ⟨e, he, rfl⟩ | ⟨a, e, ha, he, rfl⟩ := execCmp_cases h
  · exact execCmp_ok (by rw [withFloats_readLoc, ha]) (by rw [withFloats_value, hb])
  · simp only [execCmp, withFloats_readLoc, he, error_bind]
    rfl
  · simp only [execCmp, withFloats_readLoc, withFloats_value, ha, he, ok_bind, error_bind]
    rfl

theorem withFloats_arith {op : BitVec w.bits → BitVec w.bits → Except Trap (BitVec w.bits)}
    (h : arith w dst src len op s = .next t) : arith w dst src len op (withFloats s f) = .next (withFloats t f) := by
  obtain ⟨a, b, r, u, ha, hb, hr, hu, rfl⟩ | ⟨e, he, rfl⟩ | ⟨a, e, ha, he, rfl⟩ | ⟨a, b, e, ha, hb, he, rfl⟩ :=
    arith_cases h
  · simp only [arith, withFloats_readLoc, withFloats_value, ha, hb, hr, ok_bind, withFloats_writeLoc_ok f hu]
    rfl
  · simp only [arith, withFloats_readLoc, he, error_bind]
    rfl
  · simp only [arith, withFloats_readLoc, withFloats_value, ha, he, ok_bind, error_bind]
    rfl
  · exact arith_error (by rw [withFloats_readLoc, ha]) (by rw [withFloats_value, hb]) he

theorem withFloats_jumpIf {taken : Bool} (h : jumpIf taken src len s = .next t) :
    jumpIf taken src len (withFloats s f) = .next (withFloats t f) := by
  cases taken with
  | true =>
    cases h
    exact congrArg (fun a => Host.Outcome.next ((withFloats s f).setIp a)) (withFloats_target f)
  | false =>
    cases h
    rfl

/-- Every instruction but `int` does the same with other float registers, and carries them over. -/
theorem withFloats_exec {i : Instr} (hint : ∀ src, i ≠ .int src) (h : exec i s = .next t) :
    exec i (withFloats s f) = .next (withFloats t f) := by
  cases i with
  | ld w dst src => exact withFloats_execLd f h
  | st w dst src => exact withFloats_execSt f h
  | cmp w dst src => exact withFloats_execCmp f h
  | add w dst src | sub w dst src | mul w dst src | div w dst src | mod w dst src => exact withFloats_arith f h
  | jmp src => exact withFloats_jumpIf (taken := true) (len := 0) f h
  | je src | jne src | jg src | jge src | jl src | jle src => exact withFloats_jumpIf f h
  | int src => exact absurd rfl (hint src)

/-- Every instruction but `int` leaves the float registers as they are. -/
theorem exec_floats {i : Instr} (hint : ∀ src, i ≠ .int src) (h : exec i s = .next t) : t.regs.f = s.regs.f := by
  cases exec_ends h with
  | writes l w v u hu ht =>
    obtain ⟨honly, -, -, -⟩ := writeLoc_only hu
    exact ht ▸ honly.floats
  | compares v ht | jumps src hi ht | passes ht | traps e he ht => exact ht ▸ rfl
  | dispatches src n a hi hn ha ht => exact absurd hi (hint src)

/-! ## The statement about the float registers (rule R25 of spec/10_state.md) -/

/-- Settles O37: no operand reads a float register and no write but a dispatcher's changes one. -/
theorem floatRegistersAreInert : Obligations.FloatRegistersAreInert := fun _ _ _ f hint h =>
  ⟨exec_floats hint h, withFloats_exec f hint h⟩

end Sys2Proof.Machine.Proofs

/-! SUPPORT. The host's commands, each as what it does to the state: reset() and a halt request, and the loader (rules
R209, R230–R235 of spec/70_reset_and_hazards.md). -/

namespace Sys2Proof.Machine.Proofs

open Sys2Proof.Machine.Laws

variable {s t : State} {image : List Byte}

/-! ## The commands -/

theorem hostHalt_running (h : s.status = .running) : s.hostHalt = { s with status := .halted } := by
  rw [State.hostHalt, h]
  rfl

theorem hostHalt_stopped (h : s.status ≠ .running) : s.hostHalt = s := by
  unfold State.hostHalt
  split
  · exact absurd ‹_› h
  · rfl
  · rfl

theorem loadImage_fits (h : s.cfg.loadBase + image.length ≤ s.cfg.memSize) :
    s.loadImage image = some (s.setMem (s.mem.writeBytes s.cfg.loadBase image)) := if_pos (decide_eq_true h)

theorem loadImage_unfit (h : s.cfg.memSize < s.cfg.loadBase + image.length) : s.loadImage image = none :=
  if_neg fun hfits => Nat.not_le_of_lt h (of_decide_eq_true hfits)

/-- The loader gives a state only where the image fits, and then only memory has changed. -/
theorem loadImage_some (h : s.loadImage image = some t) :
    s.cfg.loadBase + image.length ≤ s.cfg.memSize ∧ t = s.setMem (s.mem.writeBytes s.cfg.loadBase image) := by
  by_cases hfits : s.cfg.loadBase + image.length ≤ s.cfg.memSize
  · rw [loadImage_fits hfits] at h
    exact ⟨hfits, (Option.some.inj h).symm⟩
  · rw [loadImage_unfit (Nat.lt_of_not_le hfits)] at h
    cases h

/-- The image is in memory where it was written. -/
theorem read_image (m : Memory) (base : Nat) (image : List Byte) (k : Nat) (h : k < image.length) :
    (m.writeBytes base image).read (base + k) = image[k] := by
  rw [read_writeBytes, dif_pos (by omega)]
  simp only [Nat.add_sub_cancel_left]

/-! ## The invariant -/

theorem hostReset_inv (h : s.Inv) : s.hostReset.Inv :=
  inv_of_shape ⟨h.memSize, h.memCanonical, h.memBelow, BitVec.zero_and⟩ (.inl rfl)

theorem hostHalt_inv (h : s.Inv) : s.hostHalt.Inv := by
  by_cases hrun : s.status = .running
  · rw [hostHalt_running hrun]
    exact inv_of_shape (shape_congr (shape_of_inv h) rfl rfl rfl) (.inr rfl)
  · exact (hostHalt_stopped hrun).symm ▸ h

theorem loadImage_inv (h : s.Inv) (hload : s.loadImage image = some t) : t.Inv := by
  obtain ⟨hfits, rfl⟩ := loadImage_some hload
  obtain ⟨hcfg, hwf, hbelow, hcf⟩ :=
    shape_setMem (shape_of_inv h) (wf_writeBytes _ image h.memCanonical) (below_writeBytes image hfits h.memBelow)
  exact ⟨hcfg, hwf, hbelow, hcf, h.trapIp⟩

/-! ## The statements about reset, a halt request and the loader -/

/-- Settles O43: reset() writes its four fields, and neither a step nor a halt request touches a stopped core. -/
theorem resetIsTheOnlyWayOut : Obligations.ResetIsTheOnlyWayOut := by
  refine ⟨fun s => ⟨rfl, rfl, rfl⟩, fun s t hstopped h => ?_, fun s hstopped => ?_⟩
  · obtain rfl : s = t := Host.Outcome.next.inj ((stoppedCoreIsInert s hstopped).symm.trans h)
    rfl
  · rw [hostHalt_stopped hstopped]

/-- Settles O44: construction gives the fields that reset() gives, and the test vectors' registers are all zero. -/
theorem resetValues : Obligations.ResetValues := by
  refine ⟨fun cfg m as => ⟨rfl, rfl, rfl, rfl, rfl, rfl⟩, ⟨_, rfl⟩, rfl, rfl, fun k => ?_, fun n => ?_,
    rfl, rfl, rfl, rfl⟩
  · cases k with
    | r n => exact Vector.getElem_replicate n.isLt
    | i0 => rfl
  · exact Vector.getElem_replicate n.isLt

/-- Settles O45: a halt request makes a Running core Halted, which a step leaves alone. -/
theorem haltRequestStopsTheCore : Obligations.HaltRequestStopsTheCore := by
  refine fun s => ⟨fun hrun => ⟨hostHalt_running hrun, ?_⟩, hostHalt_stopped⟩
  exact step_halted (congrArg State.status (hostHalt_running hrun))

/-- Settles O47: the loader writes the image's bytes and reset() keeps memory. -/
theorem loaderPlacesTheImage : Obligations.LoaderPlacesTheImage := by
  refine ⟨fun s image hfits => ?fits, fun s image => loadImage_unfit, fun cfg rest as image t hboot => ?boot⟩
  case fits =>
    refine ⟨_, loadImage_fits hfits, rfl, fun k hk => read_image _ _ image k hk, fun c hc => ?_⟩
    rw [setMem_mem, read_writeBytes, dif_neg (by omega)]
  case boot =>
    obtain ⟨u, hload, rfl⟩ := Option.map_eq_some_iff.1 hboot
    obtain ⟨-, rfl⟩ := loadImage_some hload
    exact ⟨rfl, rfl, rfl, rfl, fun k hk => read_image _ _ image k hk⟩

end Sys2Proof.Machine.Proofs

/-! SUPPORT. A run under the host's halt requests: one induction over its points, from which the statements about whole
runs follow (rules R209, R237, R238 and R240). -/

namespace Sys2Proof.Machine.Proofs

open Sys2Proof.Machine.Laws

variable {s t : State}

/-! ## Induction along a run -/

/-- A property of runs holds if it holds where the core is stopped, where the requests end or the host halts a Running
core, and before a step whenever it holds after it. -/
theorem run_induction {P : List Bool → State → Prop} (stopped : ∀ halts s, s.status ≠ .running → P halts s)
    (ends : ∀ s, s.status = .running → P [] s) (halted : ∀ later s, s.status = .running → P (true :: later) s)
    (steps : ∀ later s t, s.status = .running → step s = .next t → P later t → P (false :: later) s)
    (halts : List Bool) (s : State) : P halts s := by
  induction halts generalizing s with
  | nil =>
    by_cases hrun : s.status = .running
    · exact ends s hrun
    · exact stopped [] s hrun
  | cons halt later ih =>
    by_cases hrun : s.status = .running
    · cases halt with
      | true => exact halted later s hrun
      | false =>
        obtain ⟨t, ht⟩ := step_exists s
        exact steps later s t hrun ht (ih t)
    · exact stopped (halt :: later) s hrun

theorem runUntilStopped_nil_running (h : s.status = .running) : runUntilStopped [] s = .next (.going s) := by
  rw [runUntilStopped_nil, runAt_running h]

/-! ## Repeated stepping -/

/-- For every machine behind the host's interface: a step that answers leaves one step less to run. -/
theorem hostRun_succ {M : Host.Core} {x y : M.State} (k : Nat) (h : M.step x = .next y) :
    M.run (k + 1) x = M.run k y := by
  rw [Host.Core.run, h]

theorem coreRun_succ (k : Nat) (h : step s = .next t) : Host.Core.run core (k + 1) s = Host.Core.run core k t :=
  hostRun_succ (M := core) k h

/-- Steps of a stopped core are no steps. -/
theorem coreRun_stopped (k : Nat) (h : s.status ≠ .running) : Host.Core.run core k s = .next s := by
  induction k with
  | zero => rfl
  | succ k ih => rw [coreRun_succ k (stoppedCoreIsInert s h), ih]

/-- A run that the host leaves alone stands after `k` points where `k` steps lead. -/
theorem runUntilStopped_replicate (k : Nat) (s : State) :
    ∃ t : State, Host.Core.run core k s = .next t ∧
      runUntilStopped (List.replicate k false) s = .next (if t.status = .running then .going t else .returned t) := by
  by_cases hrun : s.status = .running
  · induction k generalizing s with
    | zero => exact ⟨s, rfl, by rw [List.replicate_zero, runUntilStopped_nil_running hrun, if_pos hrun]⟩
    | succ k ih =>
      obtain ⟨u, hu⟩ := step_exists s
      rw [coreRun_succ k hu, List.replicate_succ, runUntilStopped_step _ hrun hu]
      by_cases hurun : u.status = .running
      · exact ih u hurun
      · exact ⟨u, coreRun_stopped k hurun, by rw [runUntilStopped_stopped _ hurun, if_neg hurun]⟩
  · exact ⟨s, coreRun_stopped k hrun, by rw [runUntilStopped_stopped _ hrun, if_neg hrun]⟩

/-- A run returns no Running state, and what comes after its return changes nothing. -/
theorem runUntilStopped_returned (more halts : List Bool) (s : State) :
    ∀ t, runUntilStopped halts s = .next (.returned t) →
      t.status ≠ .running ∧ runUntilStopped (halts ++ more) s = .next (.returned t) := by
  induction halts, s using run_induction with
  | stopped halts s hstopped =>
    intro t h
    rw [runUntilStopped_stopped halts hstopped] at h
    cases h
    exact ⟨hstopped, runUntilStopped_stopped _ hstopped⟩
  | ends s hrun =>
    intro t h
    rw [runUntilStopped_nil_running hrun] at h
    cases h
  | halted later s hrun =>
    intro t h
    rw [runUntilStopped_halt later hrun] at h
    cases h
    exact ⟨nofun, runUntilStopped_halt (later ++ more) hrun⟩
  | steps later s u hrun hu ih =>
    intro t h
    rw [runUntilStopped_step later hrun hu] at h
    rw [List.cons_append, runUntilStopped_step _ hrun hu]
    exact ih t h

/-- A run that is still going has met no request, and the next one ends it. -/
theorem runUntilStopped_going (later halts : List Bool) (s : State) :
    ∀ t, runUntilStopped halts s = .next (.going t) → t.status = .running ∧ true ∉ halts ∧
      runUntilStopped (halts ++ true :: later) s = .next (.returned { t with status := .halted }) := by
  induction halts, s using run_induction with
  | stopped halts s hstopped =>
    intro t h
    rw [runUntilStopped_stopped halts hstopped] at h
    cases h
  | ends s hrun =>
    intro t h
    rw [runUntilStopped_nil_running hrun] at h
    cases h
    exact ⟨hrun, List.not_mem_nil, runUntilStopped_halt later hrun⟩
  | halted rest s hrun =>
    intro t h
    rw [runUntilStopped_halt rest hrun] at h
    cases h
  | steps rest s u hrun hu ih =>
    intro t h
    rw [runUntilStopped_step rest hrun hu] at h
    obtain ⟨htrun, hnone, hends⟩ := ih t h
    rw [List.cons_append, runUntilStopped_step _ hrun hu]
    exact ⟨htrun, by simp [hnone], hends⟩

/-- The state a run has come to: returned, or going. -/
def runState : Run → State
  | .returned s => s
  | .going s => s

/-- A run comes only to states that meet the invariant. -/
theorem runUntilStopped_inv (halts : List Bool) (s : State) :
    s.Inv → ∀ r, runUntilStopped halts s = .next r → (runState r).Inv := by
  induction halts, s using run_induction with
  | stopped halts s hstopped =>
    intro hinv r h
    rw [runUntilStopped_stopped halts hstopped] at h
    cases h
    exact hinv
  | ends s hrun =>
    intro hinv r h
    rw [runUntilStopped_nil_running hrun] at h
    cases h
    exact hinv
  | halted later s hrun =>
    intro hinv r h
    rw [runUntilStopped_halt later hrun, ← hostHalt_running hrun] at h
    cases h
    exact hostHalt_inv hinv
  | steps later s u hrun hu ih =>
    intro hinv r h
    rw [runUntilStopped_step later hrun hu] at h
    exact ih (step_inv hinv hu) r h

/-! ## A run that stands still -/

/-- A Running core that a step leaves as it is goes on until the first request. -/
theorem runUntilStopped_of_step_self (hrun : s.status = .running) (hself : step s = .next s) (halts : List Bool) :
    runUntilStopped halts s =
      .next (if true ∈ halts then .returned { s with status := .halted } else .going s) := by
  induction halts with
  | nil => exact runUntilStopped_nil_running hrun
  | cons halt later ih =>
    cases halt with
    | true => rw [runUntilStopped_halt later hrun, if_pos List.mem_cons_self]
    | false => simp [runUntilStopped_step later hrun hself, ih]

/-- A `jmp` to the address it stands at changes nothing (rule R170). -/
theorem step_jump_to_itself (hrun : s.status = .running) (hfits : s.ip.toNat + 7 ≤ s.cfg.memSize)
    (hbytes : ∀ (k : Nat) (h : k < (encode (.jmp (.imm s.ip))).length),
      s.mem.read (s.ip.toNat + k) = (encode (.jmp (.imm s.ip)))[k]) : step s = .next s := by
  have hlen : (encode (.jmp (.imm s.ip))).length = 7 := encode_length _
  rw [step_of_encode hrun rfl (by omega) hbytes]
  rfl

/-! ## The statements about runs (rules R170, R209, R237, R238 and R240) -/

/-- Settles O46: a run without requests is the machine's own repetition of `step`, and what has returned stays. -/
theorem runIsRepeatedStep : Obligations.RunIsRepeatedStep := by
  refine ⟨runUntilStopped_replicate, fun halts more s t => runUntilStopped_returned more halts s t, fun s => ?_⟩
  constructor
  · intro hends
    simp only [State.runsForever, not_forall] at hends
    obtain ⟨k, hk⟩ := hends
    obtain ⟨t, -, ht⟩ := runUntilStopped_replicate k s
    split at ht
    · exact absurd ⟨t, ht⟩ hk
    · exact ⟨k, t, ht⟩
  · rintro ⟨k, t, hreturned⟩ hforever
    obtain ⟨u, hgoing⟩ := hforever k
    cases hreturned.symm.trans hgoing

/-- Settles O48: each command keeps memory's form and cf's, and a run is made of steps and halts. -/
theorem hostCommandsKeepTheInvariant : Obligations.HostCommandsKeepTheInvariant := by
  refine fun s hinv => ⟨hostReset_inv hinv, hostHalt_inv hinv, fun image t => loadImage_inv hinv, fun halts t h => ?_⟩
  obtain hreturned | hgoing := h
  · exact runUntilStopped_inv halts s hinv _ hreturned
  · exact runUntilStopped_inv halts s hinv _ hgoing

/-- Settles O49: a run that is still going stands at a Running state, which the next request halts. -/
theorem hostHaltEndsTheRun : Obligations.HostHaltEndsTheRun :=
  ⟨fun halts later s t => runUntilStopped_going later halts s t, fun _ later => runUntilStopped_halt later⟩

/-- Settles O50: the step leaves the state as it is, so a run goes on from it until the host halts it. -/
theorem jumpToItselfRunsForever : Obligations.JumpToItselfRunsForever := by
  intro s hrun hfits hbytes
  have hself := runUntilStopped_of_step_self hrun (step_jump_to_itself hrun hfits hbytes)
  refine ⟨fun k => ⟨s, ?_⟩, fun t => ⟨fun hreturns => ?_, fun ht => ⟨[true], ?_⟩⟩⟩
  · rw [hself, if_neg (by simp [List.mem_replicate])]
  · obtain ⟨halts, h⟩ := hreturns
    rw [hself] at h
    split at h
    · exact (Run.returned.inj (Host.Outcome.next.inj h)).symm
    · cases h
  · rw [hself, if_pos List.mem_cons_self, ht]

end Sys2Proof.Machine.Proofs
